-- ==== Sys2Proof/Word.lean ====
section
/-! DEFINITION. The three bit-vector types of the machine (spec/00_scope.md R4). -/

namespace Sys2Proof

/-- A 16-bit storage unit, used alike for instructions and data (R4, R6). -/
abbrev Word := BitVec 16

/-- A 12-bit word address: the operand field of an instruction (R4, R52). -/
abbrev Addr := BitVec 12

/-- A 4-bit opcode (R4, R50). -/
abbrev Opcode := BitVec 4

end Sys2Proof
end

