-- ==== Sys2Proof/Syntax.lean ====
section
/-! DEFINITION. The sixteen instructions, in the order of the opcode map (spec/30_encoding.md R53). -/

namespace Sys2Proof

/-- An instruction: one constructor per row of spec/opcode_table.json. Every instruction word has one 12-bit
`addr` field (R50). The four instructions that take no operand (R54) carry that field too, under the name
`ignored`, so that an instruction and its word determine each other (log 6). -/
inductive Instr where
  /-- 0x0 HALT (R91). -/
  | halt (ignored : Addr)
  /-- 0x1 LOAD M(X) (R71). -/
  | load (x : Addr)
  /-- 0x2 LOAD_MQ (R72). -/
  | loadMq (ignored : Addr)
  /-- 0x3 LOAD_MQ_M M(X) (R73). -/
  | loadMqM (x : Addr)
  /-- 0x4 STOR M(X) (R74). -/
  | stor (x : Addr)
  /-- 0x5 STA M(X) (R75). -/
  | sta (x : Addr)
  /-- 0x6 ADD M(X) (R81). -/
  | add (x : Addr)
  /-- 0x7 SUB M(X) (R82). -/
  | sub (x : Addr)
  /-- 0x8 MUL M(X) (R83). -/
  | mul (x : Addr)
  /-- 0x9 DIV M(X) (R84). -/
  | div (x : Addr)
  /-- 0xA JMP M(X) (R92). -/
  | jmp (x : Addr)
  /-- 0xB JZ M(X) (R93). -/
  | jz (x : Addr)
  /-- 0xC JNZ M(X) (R94). -/
  | jnz (x : Addr)
  /-- 0xD JPOS M(X) (R95). -/
  | jpos (x : Addr)
  /-- 0xE IN (R102). -/
  | inp (ignored : Addr)
  /-- 0xF OUT (R103). -/
  | out (ignored : Addr)
  deriving DecidableEq, Repr

end Sys2Proof
end

