-- ==== Sys2Proof/Decode.lean ====
section
/-! DEFINITION. Decoding and encoding of the one instruction format `OA` (spec/30_encoding.md). -/

namespace Sys2Proof

/-- `op = w[15:12]` (R51). -/
def opField (w : Word) : Opcode := w.extractLsb' 12 4

/-- `addr = w[11:0]` (R51). -/
def addrField (w : Word) : Addr := w.extractLsb' 0 12

/-- The instruction selected by an opcode and an operand field: the binary column of the opcode map (R53).
All sixteen opcodes are defined, so nothing is rejected (R55). -/
def instrOf (op : Opcode) (x : Addr) : Instr :=
  match op.getLsbD 3, op.getLsbD 2, op.getLsbD 1, op.getLsbD 0 with
  | false, false, false, false => .halt x
  | false, false, false, true  => .load x
  | false, false, true,  false => .loadMq x
  | false, false, true,  true  => .loadMqM x
  | false, true,  false, false => .stor x
  | false, true,  false, true  => .sta x
  | false, true,  true,  false => .add x
  | false, true,  true,  true  => .sub x
  | true,  false, false, false => .mul x
  | true,  false, false, true  => .div x
  | true,  false, true,  false => .jmp x
  | true,  false, true,  true  => .jz x
  | true,  true,  false, false => .jnz x
  | true,  true,  false, true  => .jpos x
  | true,  true,  true,  false => .inp x
  | true,  true,  true,  true  => .out x

/-- Decoding is "total and needs no context" (R51, R55). -/
def decode (w : Word) : Instr := instrOf (opField w) (addrField w)

/-- The opcode of an instruction: the first column of the opcode map (R53). -/
def opcodeOf : Instr → Opcode
  | .halt _ => 0x0#4
  | .load _ => 0x1#4
  | .loadMq _ => 0x2#4
  | .loadMqM _ => 0x3#4
  | .stor _ => 0x4#4
  | .sta _ => 0x5#4
  | .add _ => 0x6#4
  | .sub _ => 0x7#4
  | .mul _ => 0x8#4
  | .div _ => 0x9#4
  | .jmp _ => 0xA#4
  | .jz _ => 0xB#4
  | .jnz _ => 0xC#4
  | .jpos _ => 0xD#4
  | .inp _ => 0xE#4
  | .out _ => 0xF#4

/-- The 12-bit `addr` field of an instruction (R50). -/
def operandOf : Instr → Addr
  | .halt x | .load x | .loadMq x | .loadMqM x | .stor x | .sta x | .add x | .sub x
  | .mul x | .div x | .jmp x | .jz x | .jnz x | .jpos x | .inp x | .out x => x

/-- The one word of an instruction: opcode in bits 15 to 12, `addr` in bits 11 to 0 (R50, R58). -/
def encode (i : Instr) : Word := opcodeOf i ++ operandOf i

/-- The instruction the decoder reads from a table row of `nbits` bits with the bits `w`. Every instruction is
one 16-bit word (R56), so a longer pattern is none. -/
def decodeTableWord (nbits w : Nat) : Option Instr :=
  if nbits ≤ 16 then some (decode (BitVec.ofNat 16 (w % 2 ^ nbits))) else none

end Sys2Proof
end

