-- ==== Sys2Proof/Config.lean ====
section
/-! DEFINITION. What is fixed for the machine, and the one family of free values. -/

namespace Sys2Proof

/-- Number of words of the Word Store: "memory size 4096 words" (R4, R19). Not configurable. -/
abbrev Config.memoryWords : Nat := 4096

/-- FREE VALUE (log 3). Word number `n` of the infinite input sequence number `k`: `INPUT` is "a finite or
infinite sequence of 16-bit words" (R23), and which word `IN` delivers "is the environment's choice" (R105, U9).
It has no body, so nothing can be proved of its values. -/
opaque Config.endlessInput : Nat → Nat → Word

end Sys2Proof
end

