-- ==== Sys2Proof/Machine/State.lean ====
section
/-! DEFINITION. The whole state of the machine (spec/10_state.md), the reasons a step can stop, and reset. -/

namespace Sys2Proof.Machine

/-- RUN (R20): while `running` the Engine performs cycles; `halted` is terminal. -/
inductive RunState where
  | running
  | halted
  deriving DecidableEq, Repr

/-- The three halt causes of the taxonomy (R21, R120). `decodeFault` is in the taxonomy and is raised by no
opcode: the opcode set is closed (R124). -/
inductive HaltCause where
  /-- "HALT opcode reached" (R122). -/
  | normalHalt
  /-- Division by zero (R123). -/
  | arithmeticFault
  /-- "defensive-only; unreachable" (R124). -/
  | decodeFault
  deriving DecidableEq, Repr

/-- The snapshot record: eight 16-bit fields in the order of the spec (spec/45_snapshot_monitor.md R113). -/
structure Snapshot where
  pcPre : Word
  pcPost : Word
  mar : Word
  ibr : Word
  ir : Word
  mbr : Word
  ac : Word
  mq : Word
  deriving DecidableEq, Repr

/-- The event kinds of TRACE (R22). -/
inductive Event where
  /-- `In(v)`: the I/O Channel supplied `v` to an IN. -/
  | inp (v : Word)
  /-- `Out(v)`: an OUT handed `v` to the I/O Channel. -/
  | out (v : Word)
  /-- `Diag(c)`: the diagnostic message of the transition to Halted. -/
  | diag (c : HaltCause)
  /-- `Snap(r)`: the Breakpoint Monitor emitted `r`. -/
  | snap (r : Snapshot)
  deriving DecidableEq, Repr

/-- INPUT (R23): a finite sequence of words, or an infinite one. An infinite sequence is named by a number, and
its words are free values (`Config.endlessInput`, log 3). -/
inductive Input where
  | finite (words : List Word)
  | endless (k : Nat)
  deriving DecidableEq, Repr

/-- The Word Store (R19) as a list of (address, word) pairs. The unit is the 16-bit word, the only addressable
unit there is (R36, log 1). A word that is not listed reads 0x0000, the reset content (R19, R26). -/
abbrev Memory := List (Nat × Word)

/-- The one canonical form of memory: addresses strictly rising, each of an existing word, and no entry equal to
what an unlisted word reads as. -/
abbrev Memory.wf (m : Memory) : Prop :=
  m.Pairwise (fun c d => c.1 < d.1) ∧ ∀ c ∈ m, c.1 < Config.memoryWords ∧ c.2 ≠ 0#16

/-- The whole state (R10), with the launch parameters BP (R24) and INPUT (R23), which no cycle changes. -/
structure State where
  /-- PC, address of the next word to fetch (R13). -/
  pc : Word
  /-- MAR, last address used for a memory access (R14). -/
  mar : Word
  /-- IR, opcode of the last fetched word (R15). -/
  ir : Opcode
  /-- IBR, operand field of the last fetched word (R16). -/
  ibr : Addr
  /-- MBR, last word transferred to or from memory (R17). -/
  mbr : Word
  /-- AC, the accumulator (R11). -/
  ac : Word
  /-- MQ, multiplier / quotient (R12). -/
  mq : Word
  /-- M, the Word Store (R19). -/
  mem : Memory
  /-- RUN (R20). -/
  run : RunState
  /-- CAUSE (R21); `none` is the spec's None. -/
  cause : Option HaltCause
  /-- TRACE, oldest event first (R22). -/
  trace : List Event
  /-- INPOS, how many input words IN has consumed (R23). -/
  inpos : Nat
  /-- BP, the breakpoint set; only membership is ever asked (R24, R110, R111). -/
  bp : List Nat
  /-- INPUT, what the I/O Channel will supply (R23). -/
  input : Input
  deriving DecidableEq, Repr

/-- Why there is no next state although nothing is unmodelled: in both cases the spec says that no cycle is
enabled (R60). Neither is one of the machine's own halt causes, which are next states. -/
inductive Fault where
  /-- Raised by `step` when RUN = Halted: "there is no cycle" (R66). Safe: the machine has no next state. -/
  | halted
  /-- Raised by IN when INPUT is exhausted: "no cycle is enabled; the machine is blocked" (R101). Safe: the
  machine has no next state. -/
  | blocked
  deriving DecidableEq, Repr

/-- Why the model answers nothing. -/
inductive Refusal where
  /-- Raised by an arm of `exec` for an instruction without a meaning. Safe. No arm raises it: all sixteen
  instructions have their meaning. -/
  | notModelled (mnemonic : String)
  deriving DecidableEq, Repr

/-- What a meaning and a step answer. -/
abbrev Result := Host.Outcome State Fault Refusal

/-- The machine right after reset: the table of R26. BP and INPUT have no reset value in the spec; the model's
values are DESIGN CHOICES (log 2: no breakpoint; log 3: an endless input whose words are free values). -/
def State.reset : State where
  pc := 0x0000#16
  mar := 0x0000#16
  ir := 0x0#4
  ibr := 0x000#12
  mbr := 0x0000#16
  ac := 0x0000#16
  mq := 0x0000#16
  mem := []
  run := .running
  cause := none
  trace := []
  inpos := 0
  bp := []
  input := .endless 0

end Sys2Proof.Machine
end

