-- ==== Sys2Proof/Machine/Ops.lean ====
section
/-! DEFINITION. The named operations over registers, memory, events and input; `raise`, the one exception
mechanism. -/

namespace Sys2Proof.Machine

/-! ### Memory as a list of listed words -/

/-- `M[a]` (R19). -/
def Memory.read : Memory → Nat → Word
  | [], _ => 0#16
  | (b, w) :: rest, a => if b = a then w else Memory.read rest a

/-- List the nonzero word `v` at `a`, keeping the addresses rising. -/
def Memory.insert : Memory → Nat → Word → Memory
  | [], a, v => [(a, v)]
  | (b, w) :: rest, a, v =>
    if a < b then (a, v) :: (b, w) :: rest
    else if a = b then (a, v) :: rest
    else (b, w) :: Memory.insert rest a v

/-- Take every entry at `a` out of the list, so that `a` reads 0x0000. -/
def Memory.erase : Memory → Nat → Memory
  | [], _ => []
  | (b, w) :: rest, a => if b = a then Memory.erase rest a else (b, w) :: Memory.erase rest a

/-- `M[a] <- v`, keeping the canonical form. -/
def Memory.write (m : Memory) (a : Nat) (v : Word) : Memory :=
  if v = 0#16 then m.erase a else m.insert a v

/-! ### Single updates -/

def State.setPc (s : State) (v : Word) : State := { s with pc := v }
def State.setMar (s : State) (v : Word) : State := { s with mar := v }
def State.setIr (s : State) (v : Opcode) : State := { s with ir := v }
def State.setIbr (s : State) (v : Addr) : State := { s with ibr := v }
def State.setMbr (s : State) (v : Word) : State := { s with mbr := v }
def State.setAc (s : State) (v : Word) : State := { s with ac := v }
def State.setMq (s : State) (v : Word) : State := { s with mq := v }
def State.setMem (s : State) (m : Memory) : State := { s with mem := m }
def State.setInpos (s : State) (n : Nat) : State := { s with inpos := n }

/-- `emit e`: append `e` to TRACE (R7, R22). -/
def State.emit (s : State) (e : Event) : State := { s with trace := s.trace ++ [e] }

/-! ### Widening -/

/-- `zext_16(v)` (R6). -/
def zext16 {n : Nat} (v : BitVec n) : Word := v.setWidth 16

/-! ### The three memory primitives (spec/20_memory.md) -/

/-- `u(addr[11:0])`: the mask every primitive applies (R30). -/
def maskAddr (addr : Word) : Nat := (addr.extractLsb' 0 12).toNat

/-- `MemRead(addr, 1)`: the word at `addr`, and the state with MBR holding it (R31). -/
def State.memRead (s : State) (addr : Word) : Word × State :=
  let v := s.mem.read (maskAddr addr)
  (v, s.setMbr v)

/-- `MemWrite(addr, 1, v)`, mode Replace (R32). -/
def State.memWrite (s : State) (addr v : Word) : State :=
  (s.setMem (s.mem.write (maskAddr addr) v)).setMbr v

/-- `old[15:12] ++ v[11:0]` (R33). -/
def patchWord (old v : Word) : Word := old.extractLsb' 12 4 ++ v.extractLsb' 0 12

/-- `MemPatch(addr, v)`, mode PatchAddress (R33). -/
def State.memPatch (s : State) (addr v : Word) : State :=
  let new := patchWord (s.mem.read (maskAddr addr)) v
  (s.setMem (s.mem.write (maskAddr addr) new)).setMbr new

/-! ### Input -/

/-- `INPUT[n]`, none past the end of a finite INPUT (R23). -/
def Input.word? : Input → Nat → Option Word
  | .finite ws, n => ws[n]?
  | .endless k, n => some (Config.endlessInput k n)

/-- `InNext()`: the next input word, INPOS advanced and `In(v)` emitted; none when INPUT is exhausted
(R100, R101, R102). -/
def State.inNext (s : State) : Option (Word × State) :=
  match s.input.word? s.inpos with
  | none => none
  | some v => some (v, (s.setInpos (s.inpos + 1)).emit (.inp v))

/-! ### Taking an exception -/

/-- `raise c`: RUN <- Halted, CAUSE <- c, emit Diag(c); nothing is saved and control goes nowhere (R121, R129).
There is no return from it: Halted is terminal (R130). -/
def State.raise (s : State) (c : HaltCause) : State :=
  { s with run := .halted, cause := some c }.emit (.diag c)

end Sys2Proof.Machine
end

