-- ==== Sys2Proof/Machine/Monitor.lean ====
section
/-! DEFINITION. The Breakpoint Monitor (spec/45_snapshot_monitor.md). -/

namespace Sys2Proof.Machine

/-- `shouldSnapshot(a) = (a in BP)` (R111). -/
def shouldSnapshot (bp : List Nat) (a : Nat) : Bool := bp.elem a

/-- The snapshot record of a cycle: `prePc` and `postPc` are PC before and after that cycle's Fetch step, the other
fields are the registers at the end of its Execute step (R113; `postPc`: D6, log 12). -/
def State.snapshot (s : State) (prePc postPc : Word) : Snapshot where
  pcPre := prePc
  pcPost := postPc
  mar := s.mar
  ibr := zext16 s.ibr
  ir := zext16 s.ir
  mbr := s.mbr
  ac := s.ac
  mq := s.mq

/-- Step 4 of the cycle: emit a snapshot when the pre-fetch PC is in BP (R64, R112). -/
def State.breakpointCheck (s : State) (prePc postPc : Word) : State :=
  if shouldSnapshot s.bp prePc.toNat then s.emit (.snap (s.snapshot prePc postPc)) else s

end Sys2Proof.Machine
end

