-- ==== Sys2Proof/Machine/Cycle.lean ====
section
/-! DEFINITION. Steps 1, 2 and 4 of the cycle (spec/40_cycle.md R61, R62, R64). -/

namespace Sys2Proof.Machine

/-- `w16((u(PC) + 1) mod 4096)` (R13, R61; the modulus: D1, log 7). -/
def nextPc (pc : Word) : Word := BitVec.ofNat 16 ((pc.toNat + 1) % Config.memoryWords)

/-- Step 1, Fetch: MAR <- PC; MemRead(MAR, 1); PC <- PC + 1 modulo 4096 (R61). -/
def State.fetch (s : State) : State :=
  let s1 := s.setMar s.pc
  let s2 := (s1.memRead s1.mar).2
  s2.setPc (nextPc s2.pc)

/-- Step 2, Decode: IR <- MBR[15:12]; IBR <- MBR[11:0] (R62). -/
def State.decodeFields (s : State) : State :=
  (s.setIr (opField s.mbr)).setIbr (addrField s.mbr)

/-- Steps 1 and 2. -/
def State.fetchDecode (s : State) : State := s.fetch.decodeFields

/-- Step 4 after step 3: the Breakpoint check runs on whatever state the handler left, "even on the cycle that sets
`Halted`" (R64); a cycle that never completes emits nothing (R112). -/
def finishCycle (prePc postPc : Word) : Result → Result
  | .next t => .next (t.breakpointCheck prePc postPc)
  | .fault r => .fault r
  | .refused r => .refused r

end Sys2Proof.Machine
end

