-- ==== Sys2Proof/Machine/Alu.lean ====
section
/-! DEFINITION. The accumulator ALU: exact integer arithmetic, narrowed explicitly (spec/42_arithmetic.md). -/

namespace Sys2Proof.Machine

/-- `w16(i)` (R6). -/
def w16 (i : Int) : Word := BitVec.ofInt 16 i

/-- `w32(i)` (R6). -/
def w32 (i : Int) : BitVec 32 := BitVec.ofInt 32 i

/-- `tdiv(a, b)`: the quotient rounded toward zero, `|q| = floor(|a| / |b|)`, negative exactly when the signs
differ and `|q| > 0` (R85). -/
def tdiv (a b : Int) : Int :=
  if 0 ≤ a ↔ 0 ≤ b then ((a.natAbs / b.natAbs : Nat) : Int) else -((a.natAbs / b.natAbs : Nat) : Int)

/-- `trem(a, b) = a - tdiv(a, b) * b` (R85). -/
def trem (a b : Int) : Int := a - tdiv a b * b

/-- `w16(s(a) + s(b))` (R81, R87). -/
def addWord (a b : Word) : Word := w16 (a.toInt + b.toInt)

/-- `w16(s(a) - s(b))` (R82, R87). -/
def subWord (a b : Word) : Word := w16 (a.toInt - b.toInt)

/-- `w32(s(a) * s(b))`: signed operands (R83, R86, D2, log 8). -/
def mulProduct (a b : Word) : BitVec 32 := w32 (a.toInt * b.toInt)

/-- `w16(tdiv(s(a), s(d)))`: signed, truncating, narrowed (R84, R86, D3, D4, logs 9 and 10). -/
def divQuotient (a d : Word) : Word := w16 (tdiv a.toInt d.toInt)

/-- `w16(trem(s(a), s(d)))` (R84). -/
def divRemainder (a d : Word) : Word := w16 (trem a.toInt d.toInt)

end Sys2Proof.Machine
end

