-- ==== Sys2Proof/Machine/Operands.lean ====
section
/-! DEFINITION. The one operand form: the direct memory operand `M(X)`, and the jump target.

"There is one addressing mode, direct (absolute)" (spec/20_memory.md R35). Every access writes
`MAR <- zext_16(IBR)` immediately before its one call of a memory primitive (R34, D5, log 11). `x` is the operand
field of the decoded instruction, which the Decode step has put into IBR (log 16). -/

namespace Sys2Proof.Machine

/-- `MAR <- zext_16(X); MemRead(MAR, 1)`. -/
def State.readOperand (s : State) (x : Addr) : Word × State :=
  let s1 := s.setMar (zext16 x)
  s1.memRead s1.mar

/-- `MAR <- zext_16(X); MemWrite(MAR, 1, v)`. -/
def State.writeOperand (s : State) (x : Addr) (v : Word) : State :=
  let s1 := s.setMar (zext16 x)
  s1.memWrite s1.mar v

/-- `MAR <- zext_16(X); MemPatch(MAR, v)`. -/
def State.patchOperand (s : State) (x : Addr) (v : Word) : State :=
  let s1 := s.setMar (zext16 x)
  s1.memPatch s1.mar v

/-- `PC <- zext_16(X)` (R90). -/
def State.jumpTo (s : State) (x : Addr) : State := s.setPc (zext16 x)

end Sys2Proof.Machine
end

