-- ==== Sys2Proof/Machine/Arithmetic.lean ====
section
/-! DEFINITION. ADD, SUB, MUL, DIV (spec/42_arithmetic.md). Each reads exactly one memory word (R80). -/

namespace Sys2Proof.Machine

/-- ADD M(X) (R81). -/
def execAdd (x : Addr) (s : State) : Result :=
  let r := s.readOperand x
  .next (r.2.setAc (addWord s.ac r.1))

/-- SUB M(X) (R82). -/
def execSub (x : Addr) (s : State) : Result :=
  let r := s.readOperand x
  .next (r.2.setAc (subWord s.ac r.1))

/-- MUL M(X): AC <- P[31:16], MQ <- P[15:0] (R83). -/
def execMul (x : Addr) (s : State) : Result :=
  let r := s.readOperand x
  let p := mulProduct s.mq r.1
  .next ((r.2.setAc (p.extractLsb' 16 16)).setMq (p.extractLsb' 0 16))

/-- DIV M(X): ArithmeticFault on a zero divisor, after the operand read and before AC or MQ is written; else MQ gets
the quotient and AC the remainder, both from the old AC (R84, R123). -/
def execDiv (x : Addr) (s : State) : Result :=
  let r := s.readOperand x
  if r.1 = 0#16 then .next (r.2.raise .arithmeticFault)
  else .next ((r.2.setMq (divQuotient s.ac r.1)).setAc (divRemainder s.ac r.1))

end Sys2Proof.Machine
end

