-- ==== Sys2Proof/Machine/Flags.lean ====
section
/-! DEFINITION. The conditions of the conditional jumps. "The machine has no status flags, no condition codes and
no predicate registers" (spec/10_state.md R18): each condition is computed from AC when the jump executes. -/

namespace Sys2Proof.Machine

/-- `u(AC) = 0`, the condition of JZ (R93). -/
def isZero (ac : Word) : Bool := ac.toNat == 0

/-- `u(AC) /= 0`, the condition of JNZ (R94). -/
def isNonzero (ac : Word) : Bool := ac.toNat != 0

/-- `s(AC) >= 0`, the condition of JPOS (R95). -/
def isNonnegative (ac : Word) : Bool := decide (0 ≤ ac.toInt)

end Sys2Proof.Machine
end

