-- ==== Sys2Proof/Machine/Control.lean ====
section
/-! DEFINITION. HALT, JMP, JZ, JNZ, JPOS (spec/43_control.md). A jump that is not taken does nothing (R90). -/

namespace Sys2Proof.Machine

/-- HALT: `raise NormalHalt` (R91). -/
def execHalt (s : State) : Result := .next (s.raise .normalHalt)

/-- JMP M(X) (R92). -/
def execJmp (x : Addr) (s : State) : Result := .next (s.jumpTo x)

/-- JZ M(X) (R93). -/
def execJz (x : Addr) (s : State) : Result := .next (if isZero s.ac then s.jumpTo x else s)

/-- JNZ M(X) (R94). -/
def execJnz (x : Addr) (s : State) : Result := .next (if isNonzero s.ac then s.jumpTo x else s)

/-- JPOS M(X) (R95). -/
def execJpos (x : Addr) (s : State) : Result := .next (if isNonnegative s.ac then s.jumpTo x else s)

end Sys2Proof.Machine
end

