-- ==== Sys2Proof/Machine/InputOutput.lean ====
section
/-! DEFINITION. IN and OUT (spec/44_io.md). -/

namespace Sys2Proof.Machine

/-- IN: AC <- the next input word (R102); with no word available the machine is blocked, "no cycle is enabled"
(R101, log 4). -/
def execInp (s : State) : Result :=
  match s.inNext with
  | some r => .next (r.2.setAc r.1)
  | none => .fault .blocked

/-- OUT: `emit Out(AC)` (R103). -/
def execOut (s : State) : Result := .next (s.emit (.out s.ac))

end Sys2Proof.Machine
end

