-- ==== Sys2Proof/Machine/LoadStore.lean ====
section
/-! DEFINITION. LOAD, LOAD_MQ, LOAD_MQ_M, STOR, STA (spec/41_load_store.md). Each meaning is the Execute step on the
state that Fetch and Decode left (R70). -/

namespace Sys2Proof.Machine

/-- LOAD M(X) (R71). -/
def execLoad (x : Addr) (s : State) : Result :=
  let r := s.readOperand x
  .next (r.2.setAc r.1)

/-- LOAD_MQ (R72). -/
def execLoadMq (s : State) : Result := .next (s.setAc s.mq)

/-- LOAD_MQ_M M(X) (R73). -/
def execLoadMqM (x : Addr) (s : State) : Result :=
  let r := s.readOperand x
  .next (r.2.setMq r.1)

/-- STOR M(X) (R74). -/
def execStor (x : Addr) (s : State) : Result := .next (s.writeOperand x s.ac)

/-- STA M(X) (R75). -/
def execSta (x : Addr) (s : State) : Result := .next (s.patchOperand x s.ac)

end Sys2Proof.Machine
end

