-- ==== Sys2Proof/Machine/Dispatch.lean ====
section
/-! DEFINITION. Step 3 of the cycle, Execute: exactly one handler runs (spec/40_cycle.md R63, 30_encoding.md R53). -/

namespace Sys2Proof.Machine

/-- The handler of an instruction, on the state that Fetch and Decode left. The four instructions without an operand
ignore the field (R54). -/
def exec (i : Instr) (s : State) : Host.Outcome State Fault Refusal :=
  match i with
  | .halt _ => Sys2Proof.Machine.execHalt s
  | .load x => Sys2Proof.Machine.execLoad x s
  | .loadMq _ => Sys2Proof.Machine.execLoadMq s
  | .loadMqM x => Sys2Proof.Machine.execLoadMqM x s
  | .stor x => Sys2Proof.Machine.execStor x s
  | .sta x => Sys2Proof.Machine.execSta x s
  | .add x => Sys2Proof.Machine.execAdd x s
  | .sub x => Sys2Proof.Machine.execSub x s
  | .mul x => Sys2Proof.Machine.execMul x s
  | .div x => Sys2Proof.Machine.execDiv x s
  | .jmp x => Sys2Proof.Machine.execJmp x s
  | .jz x => Sys2Proof.Machine.execJz x s
  | .jnz x => Sys2Proof.Machine.execJnz x s
  | .jpos x => Sys2Proof.Machine.execJpos x s
  | .inp _ => Sys2Proof.Machine.execInp s
  | .out _ => Sys2Proof.Machine.execOut s

end Sys2Proof.Machine
end

