-- ==== Sys2Proof/Machine/Step.lean ====
section
/-! DEFINITION. One step is one whole cycle (spec/40_cycle.md R60, R65). -/

namespace Sys2Proof.Machine

/-- One cycle: Fetch, Decode, Execute on the instruction that IR and IBR name, Breakpoint check. When RUN = Halted
"there is no cycle" (R66). -/
def step (s : State) : Host.Outcome State Fault Refusal :=
  match s.run with
  | .halted => .fault .halted
  | .running =>
    let d := s.fetchDecode
    finishCycle s.pc d.pc (exec (instrOf d.ir d.ibr) d)

/-- `s` with the one-word instruction whose bits are `w` stored at the address the next Fetch reads. -/
def State.withFetchWord (s : State) (nbits w : Nat) : State :=
  s.setMem (s.mem.write (maskAddr s.pc) (BitVec.ofNat 16 (w % 2 ^ nbits)))

end Sys2Proof.Machine
end

