-- ==== Sys2Proof/WellFormed.lean ====
section
/-! DEFINITION. What can be ill-formed: nothing about one instruction, something about a memory image.

Every opcode value and every operand value is legal (spec/30_encoding.md R55) and the type `Addr` holds exactly
the legal operands 0 .. 4095, so `Instr` has no ill-formed term and needs no check. The one check the spec asks
for is on the launch argument IMAGE: "an image containing such a pair is refused" (R144, D10). -/

namespace Sys2Proof

/-- A memory image as the loader's ordered list of (address, value) pairs (R144). -/
abbrev Image := List (Nat × Word)

/-- Every pair names an existing word (R144, D10: an address above 0x0FFF is refused). -/
def Image.wellFormed (im : Image) : Bool :=
  im.all fun p => decide (p.1 < Config.memoryWords)

end Sys2Proof
end

