-- ==== Sys2Proof/Machine/Launch.lean ====
section
/-! DEFINITION. What happens before the first cycle (spec/70_reset_and_hazards.md R143): reset, the loader fills M,
BP and INPUT are fixed. -/

namespace Sys2Proof.Machine

/-- The loader: each pair performs `M[address] <- value`, in the order read, so a later pair overrides an earlier one
(R144). -/
def loadImage (im : Image) (m : Memory) : Memory :=
  match im with
  | [] => m
  | (a, v) :: rest => loadImage rest (m.write a v)

/-- The state at the first cycle. An image with an address above 0x0FFF is not admitted (R144, D10, log 15). The loader
touches no register (R143). -/
def launch (im : Image) (bp : List Nat) (input : Input) : Option State :=
  if im.wellFormed then
    some { State.reset with mem := loadImage im State.reset.mem, bp := bp, input := input }
  else none

end Sys2Proof.Machine
end

