-- ==== Sys2Proof/Safety.lean ====
section
/-! DEFINITION. The terms claims use: the projections of TRACE, how a run ends, runs of many cycles, and the invariants
of the machine. -/

namespace Sys2Proof.Safety

open Sys2Proof.Machine

/-! ### The outputs of the machine: projections of TRACE (spec/10_state.md R22) -/

/-- The list of `In` values. -/
def inputsOf (t : List Event) : List Word :=
  t.filterMap fun e => match e with
    | .inp v => some v
    | .out _ => none
    | .diag _ => none
    | .snap _ => none

/-- The list of `Out` values: "what the console prints". -/
def outputsOf (t : List Event) : List Word :=
  t.filterMap fun e => match e with
    | .inp _ => none
    | .out v => some v
    | .diag _ => none
    | .snap _ => none

/-- The list of `Diag` causes: "the at most one Diag". -/
def diagsOf (t : List Event) : List HaltCause :=
  t.filterMap fun e => match e with
    | .inp _ => none
    | .out _ => none
    | .diag c => some c
    | .snap _ => none

/-- The list of snapshots. -/
def snapsOf (t : List Event) : List Snapshot :=
  t.filterMap fun e => match e with
    | .inp _ => none
    | .out _ => none
    | .diag _ => none
    | .snap r => some r

/-- TRACE without its `Snap` events: "the same Out, In and Diag events in the same order" (R115). -/
def withoutSnaps (t : List Event) : List Event :=
  t.filter fun e => match e with
    | .inp _ => true
    | .out _ => true
    | .diag _ => true
    | .snap _ => false

/-! ### How a run ends -/

/-- "halts normally" (R122). -/
def HaltsNormally (s : State) : Prop := s.run = .halted ∧ s.cause = some .normalHalt

/-- Ended by a division by zero (R123). -/
def Faulted (s : State) : Prop := s.run = .halted ∧ s.cause = some .arithmeticFault

/-- Blocked: RUN = Running, the word at `M[u(PC)]` has opcode 0xE and INPUT is exhausted (R101). -/
def Blocked (s : State) : Prop :=
  s.run = .running ∧ opField (s.mem.read (maskAddr s.pc)) = 0xE#4 ∧ s.input.word? s.inpos = none

/-! ### Runs of many cycles -/

/-- `n` cycles, stopping where no cycle is enabled (R67). -/
def runCycles : Nat → State → Result
  | 0, s => .next s
  | n + 1, s => match step s with
    | .next t => runCycles n t
    | .fault r => .fault r
    | .refused r => .refused r

/-- The pre-fetch PCs of the first `n` cycles from `s`, as far as cycles complete. -/
def visits : Nat → State → List Word
  | 0, _ => []
  | n + 1, s => match step s with
    | .next t => s.pc :: visits n t
    | .fault _ => []
    | .refused _ => []

/-- The instruction that the next cycle executes. -/
def nextInstr (s : State) : Instr := decode (s.mem.read (maskAddr s.pc))

/-- The instruction is a jump whose condition holds on this AC (R68). -/
def takesJump (i : Instr) (ac : Word) : Bool :=
  match i with
  | .halt _ | .load _ | .loadMq _ | .loadMqM _ | .stor _ | .sta _ | .add _ | .sub _ | .mul _ | .div _ => false
  | .jmp _ => true
  | .jz _ => decide (ac = 0#16)
  | .jnz _ => decide (ac ≠ 0#16)
  | .jpos _ => decide (0 ≤ ac.toInt)
  | .inp _ | .out _ => false

/-- No cycle among the first `n` from `s` takes a jump. -/
def noJumpFor : Nat → State → Prop
  | 0, _ => True
  | n + 1, s => ¬ takesJump (nextInstr s) s.ac ∧
    match step s with
    | .next t => noJumpFor n t
    | .fault _ => True
    | .refused _ => True

/-- The instruction has a memory operand: its handler makes one memory access (R35, R38). -/
def accessesMemory : Instr → Bool
  | .load _ | .loadMqM _ | .stor _ | .sta _ | .add _ | .sub _ | .mul _ | .div _ => true
  | .halt _ | .loadMq _ | .jmp _ | .jz _ | .jnz _ | .jpos _ | .inp _ | .out _ => false

/-- The events of the Execute step of an instruction from a state: "at most one of In or Out, or one Diag" (R22). -/
def executeEvents (i : Instr) (s : State) : List Event :=
  match i with
  | .halt _ => [.diag .normalHalt]
  | .div x => if s.mem.read x.toNat = 0#16 then [.diag .arithmeticFault] else []
  | .inp _ => (s.input.word? s.inpos).toList.map .inp
  | .out _ => [.out s.ac]
  | .load _ | .loadMq _ | .loadMqM _ | .stor _ | .sta _ | .add _ | .sub _ | .mul _ => []
  | .jmp _ | .jz _ | .jnz _ | .jpos _ => []

/-- What is left of an outcome when the Breakpoint Monitor is taken away: no BP, no `Snap` events (R115). -/
def unobserved : Result → Result
  | .next t => .next { t with bp := [], trace := withoutSnaps t.trace }
  | .fault r => .fault r
  | .refused r => .refused r

/-! ### Invariants -/

/-- PC and MAR hold addresses of existing words and memory has its canonical form (R13, R14, R19). -/
def AddressesInRange (s : State) : Prop :=
  s.pc.toNat < Config.memoryWords ∧ s.mar.toNat < Config.memoryWords ∧ s.mem.wf

/-- CAUSE is None exactly while RUN = Running, is never DecodeFault, and TRACE holds exactly its one Diag
(R21, R22, R124). -/
def CauseAgrees (s : State) : Prop :=
  (s.run = .running ↔ s.cause = none) ∧ s.cause ≠ some .decodeFault ∧ diagsOf s.trace = s.cause.toList

/-- The `In` events are the first INPOS words of INPUT: "the n-th executed IN returns INPUT[n-1]" (R23). -/
def InputAccounted (s : State) : Prop :=
  (inputsOf s.trace).map some = (List.range s.inpos).map s.input.word?

/-- Every snapshot was taken at a breakpoint, its `pc_post` is the next sequential address, and its `ir` and `ibr`
are widened fields (R113). -/
def SnapshotsFaithful (s : State) : Prop :=
  ∀ r ∈ snapsOf s.trace, r.pcPre.toNat ∈ s.bp ∧ r.pcPost = nextPc r.pcPre ∧ r.ir.toNat < 16 ∧
    r.ibr.toNat < Config.memoryWords

end Sys2Proof.Safety
end

