-- ==== Sys2Proof/Certificates/Slice0/Obligations.lean ====
section
/-! DEFINITION. The statements for the provers. Each docstring names the rule R<n> of spec/ that the statement
formalises, or the sections it rests on. Where a clause rests on a decision D<n> that the spec marks as its own
choice, the docstring says so and names the log entry. -/

open Sys2Proof Sys2Proof.Machine Sys2Proof.Safety

/-! ### Encoding -/

/-- Decoding the word of an instruction gives that instruction, for every instruction and every value of its 12-bit
field (spec/30_encoding.md sections 1 and 3). That the four operand-less instructions carry their ignored field is the
model's choice (log 6). -/
def Obligations.DecodeInvertsEncode : Prop := ∀ i : Instr, decode (encode i) = i

/-- Every word decodes to exactly one instruction, and none traps as illegal: no handler refuses, and none raises
DecodeFault (spec/30_encoding.md section 4). That an instruction and its word determine each other, also for HALT,
LOAD_MQ, IN and OUT, whose constructors carry their ignored field, is the model's choice (log 6). -/
def Obligations.EveryWordIsOneInstruction : Prop :=
  ∀ w : Word, (∃! i : Instr, encode i = w) ∧ encode (decode w) = w ∧
    ∀ s : State, (∀ r, exec (decode w) s ≠ .refused r) ∧
      ∀ t, exec (decode w) s = .next t → t.cause = some .decodeFault → s.cause = some .decodeFault

/-- R58: the word of an instruction with opcode `op` and operand address X is `w16(op * 4096 + X)`, with the four
examples of the rule. -/
def Obligations.WordIsOpcodeTimes4096PlusAddress : Prop :=
  (∀ i : Instr, encode i = BitVec.ofNat 16 ((opcodeOf i).toNat * 4096 + (operandOf i).toNat)) ∧
  encode (.load 5#12) = 0x1005#16 ∧ encode (.out 0#12) = 0xF000#16 ∧ encode (.halt 0#12) = 0x0000#16 ∧
  encode (.add 0x005#12) = 0x6005#16

/-- The sixteen rows of the opcode map on the words of spec/95_test_vectors.md section 2.6 (S10, S11): a check of
written-out words. -/
def Obligations.OpcodeMapWordsDecode : Prop :=
  decode 0x0000#16 = .halt 0x000#12 ∧ decode 0x1005#16 = .load 0x005#12 ∧ decode 0x2000#16 = .loadMq 0x000#12 ∧
  decode 0x3031#16 = .loadMqM 0x031#12 ∧ decode 0x4021#16 = .stor 0x021#12 ∧ decode 0x5003#16 = .sta 0x003#12 ∧
  decode 0x6ABC#16 = .add 0xABC#12 ∧ decode 0x7022#16 = .sub 0x022#12 ∧ decode 0x8030#16 = .mul 0x030#12 ∧
  decode 0x9011#16 = .div 0x011#12 ∧ decode 0xA00C#16 = .jmp 0x00C#12 ∧ decode 0xBFFF#16 = .jz 0xFFF#12 ∧
  decode 0xC000#16 = .jnz 0x000#12 ∧ decode 0xD010#16 = .jpos 0x010#12 ∧ decode 0xE000#16 = .inp 0x000#12 ∧
  decode 0xFFFB#16 = .out 0xFFB#12

/-- R62: after every cycle, whatever the instruction, IR holds bits 15 to 12 of the fetched word (`mbr >> 12`) and IBR
its bits 11 to 0 (`mbr & 0x0FFF`). -/
def Obligations.DecodeStepSplitsFetchedWord : Prop :=
  ∀ s t : State, step s = .next t → ∀ w : Word, s.mem.read (maskAddr s.pc) = w →
    t.ir = w.extractLsb' 12 4 ∧ t.ibr = w.extractLsb' 0 12 ∧
    t.ir.toNat = (w >>> 12).toNat ∧ t.ibr.toNat = (w &&& 0x0FFF#16).toNat

/-- The operand field of HALT, LOAD_MQ, IN and OUT is ignored by the handler (spec/30_encoding.md section 2; the spec's
decision D17, log 6). -/
def Obligations.OperandlessHandlersIgnoreField : Prop :=
  ∀ (x y : Addr) (s : State), exec (.halt x) s = exec (.halt y) s ∧ exec (.loadMq x) s = exec (.loadMq y) s ∧
    exec (.inp x) s = exec (.inp y) s ∧ exec (.out x) s = exec (.out y) s

/-! ### Memory primitives -/

/-- Every address given to a primitive is masked to 12 bits, an address below 4096 is left as it is, and the operand
address reaches memory as the value of the operand field (spec/20_memory.md sections 1 and 3). -/
def Obligations.AddressesAreMaskedToTwelveBits : Prop :=
  (∀ addr : Word, maskAddr addr = addr.toNat % 4096 ∧ maskAddr addr = (addr &&& 0x0FFF#16).toNat) ∧
  (∀ addr : Word, addr.toNat < 4096 → maskAddr addr = addr.toNat) ∧
  (∀ x : Addr, maskAddr (zext16 x) = x.toNat)

/-- R31: MemRead answers the word at the masked address, writes it to MBR, changes nothing else (not memory, not MAR),
and a second read of the address answers the same word. -/
def Obligations.MemReadReturnsWordAndWritesMbr : Prop :=
  ∀ (s : State) (addr : Word),
    s.memRead addr = (s.mem.read (maskAddr addr), { s with mbr := s.mem.read (maskAddr addr) }) ∧
    ((s.memRead addr).2.memRead addr).1 = (s.memRead addr).1

/-- R32: MemWrite replaces all 16 bits of the addressed word and sets MBR to the stored value; every other word and
every other piece of state is unchanged. STOR uses it, with AC and its own operand address, and no instruction but STOR
and STA (which uses MemPatch) writes memory. -/
def Obligations.MemWriteReplacesOneWord : Prop :=
  (∀ (s : State) (addr v : Word), ∃ m : Memory,
    s.memWrite addr v = { s with mem := m, mbr := v } ∧ m.read (maskAddr addr) = v ∧
    ∀ b, b ≠ maskAddr addr → m.read b = s.mem.read b) ∧
  (∀ (x : Addr) (s : State), ∃ s1 : State, s1.mem = s.mem ∧
    exec (.stor x) s = .next (s1.memWrite (zext16 x) s.ac)) ∧
  ∀ (i : Instr) (s t : State), exec i s = .next t → (∀ x, i ≠ .stor x ∧ i ≠ .sta x) → t.mem = s.mem

/-- R33: MemPatch stores `(old & 0xF000) | (v & 0x0FFF)` and sets MBR to it; every other word and every other piece of
state is unchanged. STA uses it, with AC and its own operand address, and no instruction but STA and STOR (which uses
MemWrite) writes memory. With the example of the rule. -/
def Obligations.MemPatchKeepsTopFourBits : Prop :=
  (∀ (s : State) (addr v : Word), ∃ (m : Memory) (new : Word),
    new = (s.mem.read (maskAddr addr) &&& 0xF000#16) ||| (v &&& 0x0FFF#16) ∧
    new = (s.mem.read (maskAddr addr)).extractLsb' 12 4 ++ v.extractLsb' 0 12 ∧
    s.memPatch addr v = { s with mem := m, mbr := new } ∧ m.read (maskAddr addr) = new ∧
    ∀ b, b ≠ maskAddr addr → m.read b = s.mem.read b) ∧
  (∀ (x : Addr) (s : State), ∃ s1 : State, s1.mem = s.mem ∧
    exec (.sta x) s = .next (s1.memPatch (zext16 x) s.ac)) ∧
  (∀ (i : Instr) (s t : State), exec i s = .next t → (∀ x, i ≠ .stor x ∧ i ≠ .sta x) → t.mem = s.mem) ∧
  patchWord 0x6005#16 0x0ABC#16 = 0x6ABC#16

/-! ### Load and store -/

/-- R46: LOAD and LOAD_MQ_M copy all 16 bits of the word at X into a register, STOR copies all 16 bits of AC into the
word at X. -/
def Obligations.TransfersCopyAllSixteenBits : Prop :=
  ∀ (x : Addr) (s : State),
    (∃ t, exec (.load x) s = .next t ∧ t.ac = s.mem.read x.toNat) ∧
    (∃ t, exec (.loadMqM x) s = .next t ∧ t.mq = s.mem.read x.toNat) ∧
    (∃ t, exec (.stor x) s = .next t ∧ t.mem.read x.toNat = s.ac)

/-- LOAD M(X) (spec/41_load_store.md section 2): AC = MBR = M[X], MAR = X, nothing else changes. MAR = X is the spec's
decision D5 (log 11). -/
def Obligations.LoadSetsAcMbrMar : Prop :=
  ∀ (x : Addr) (s : State), exec (.load x) s =
    .next { s with mar := x.setWidth 16, mbr := s.mem.read x.toNat, ac := s.mem.read x.toNat }

/-- R72: LOAD_MQ, any word 0x2000 + field, copies MQ to AC and changes nothing else: no memory access, MAR and MBR
keep what the Fetch left. -/
def Obligations.LoadMqCopiesMqToAc : Prop :=
  (∀ (x : Addr) (s : State), exec (.loadMq x) s = .next { s with ac := s.mq }) ∧
  ∀ x : Addr, encode (.loadMq x) = BitVec.ofNat 16 (0x2000 + x.toNat)

/-- LOAD_MQ_M M(X) (spec/41_load_store.md section 2): MQ = MBR = M[X], MAR = X, nothing else changes. MAR = X is the
spec's decision D5 (log 11). -/
def Obligations.LoadMqMSetsMqMbrMar : Prop :=
  ∀ (x : Addr) (s : State), exec (.loadMqM x) s =
    .next { s with mar := x.setWidth 16, mbr := s.mem.read x.toNat, mq := s.mem.read x.toNat }

/-- STOR M(X) (spec/41_load_store.md section 2): M[X] = MBR = AC, MAR = X; every other word and every other piece of
state is unchanged. The address is the one the handler computes. MAR = X is the spec's decision D5 (log 11). -/
def Obligations.StorReplacesOneWord : Prop :=
  ∀ (x : Addr) (s : State) (a : Nat), a = maskAddr (zext16 x) →
    a = x.toNat ∧ ∃ m : Memory,
      exec (.stor x) s = .next { s with mar := x.setWidth 16, mbr := s.ac, mem := m } ∧
      m.read a = s.ac ∧ ∀ b, b ≠ a → m.read b = s.mem.read b

/-- STA M(X) (spec/41_load_store.md section 2): M[X] = MBR = (old M[X] & 0xF000) | (AC & 0x0FFF), MAR = X; every other
word and every other piece of state is unchanged; so the instruction stored at X keeps its opcode and gets the low 12
bits of AC as operand. MAR = X is the spec's decision D5 (log 11). -/
def Obligations.StaPatchesOperandField : Prop :=
  ∀ (x : Addr) (s : State) (a : Nat) (new : Word), a = maskAddr (zext16 x) →
    new = (s.mem.read x.toNat &&& 0xF000#16) ||| (s.ac &&& 0x0FFF#16) →
    a = x.toNat ∧ opField new = opField (s.mem.read x.toNat) ∧ addrField new = addrField s.ac ∧ ∃ m : Memory,
      exec (.sta x) s = .next { s with mar := x.setWidth 16, mbr := new, mem := m } ∧
      m.read a = new ∧ ∀ b, b ≠ a → m.read b = s.mem.read b

/-! ### Arithmetic -/

/-- R87: ADD and SUB give the exact sum or difference of the signed values reduced modulo 65536, the same bits as for
the unsigned values; overflow sets nothing and stops nothing; with the three examples of the rule. -/
def Obligations.AddSubWrapSilently : Prop :=
  (∀ (x : Addr) (s : State) (v : Word), s.mem.read x.toNat = v →
    (∃ t, exec (.add x) s = .next t ∧ t.ac = BitVec.ofInt 16 (s.ac.toInt + v.toInt) ∧
      t.ac = BitVec.ofNat 16 (s.ac.toNat + v.toNat) ∧ t.run = s.run ∧ t.cause = s.cause ∧ t.trace = s.trace) ∧
    (∃ t, exec (.sub x) s = .next t ∧ t.ac = BitVec.ofInt 16 (s.ac.toInt - v.toInt) ∧
      t.ac = BitVec.ofInt 16 ((s.ac.toNat : Int) - (v.toNat : Int)) ∧ t.run = s.run ∧ t.cause = s.cause ∧
      t.trace = s.trace)) ∧
  addWord 0x7FFF#16 0x0001#16 = 0x8000#16 ∧ subWord 0x8000#16 0x0001#16 = 0x7FFF#16 ∧
  addWord 0x8000#16 0x8000#16 = 0x0000#16

/-- ADD M(X) (spec/42_arithmetic.md section 3): AC = (AC + M[X]) mod 65536, MBR = M[X], MAR = X, nothing else changes.
MAR = X is the spec's decision D5 (log 11). -/
def Obligations.AddSetsAcMbrMar : Prop :=
  ∀ (x : Addr) (s : State), exec (.add x) s =
    .next { s with mar := x.setWidth 16, mbr := s.mem.read x.toNat, ac := s.ac + s.mem.read x.toNat }

/-- SUB M(X) (spec/42_arithmetic.md section 3): AC = (AC - M[X]) mod 65536, MBR = M[X], MAR = X, nothing else changes.
MAR = X is the spec's decision D5 (log 11). -/
def Obligations.SubSetsAcMbrMar : Prop :=
  ∀ (x : Addr) (s : State), exec (.sub x) s =
    .next { s with mar := x.setWidth 16, mbr := s.mem.read x.toNat, ac := s.ac - s.mem.read x.toNat }

/-- MUL M(X) (spec/42_arithmetic.md section 3): AC ++ MQ is the exact signed product of MQ and M[X], MBR = M[X],
MAR = X, nothing else changes. Signed is the spec's decision D2 (log 8), MAR = X its decision D5 (log 11). -/
def Obligations.MulGivesExactSignedProduct : Prop :=
  ∀ (x : Addr) (s : State) (v : Word), s.mem.read x.toNat = v → ∃ hi lo : Word,
    exec (.mul x) s = .next { s with mar := x.setWidth 16, mbr := v, ac := hi, mq := lo } ∧
    (hi ++ lo : BitVec 32).toInt = s.mq.toInt * v.toInt

/-- The low half of the product is the same for signed and unsigned operands, and both halves are when bit 15 of both
operands is clear (spec/42_arithmetic.md section 2, spec/93_implementation_defined.md U2): what of MUL does not rest on
the spec's decision D2 (log 8). -/
def Obligations.MulAgreesWithUnsignedWhereSpecSays : Prop :=
  ∀ (x : Addr) (s : State) (v : Word), s.mem.read x.toNat = v → ∃ t, exec (.mul x) s = .next t ∧
    t.mq = BitVec.ofNat 16 (s.mq.toNat * v.toNat) ∧
    (s.mq.toNat < 32768 → v.toNat < 32768 → t.ac.toNat * 65536 + t.mq.toNat = s.mq.toNat * v.toNat)

/-- R85: for `b /= 0` the quotient has `|q| = floor(|a| / |b|)` and is negative exactly when `a` and `b` have opposite
signs and `|q| > 0`; `a = q * b + r`; `|r| < |b|`; `r` is zero or has the sign of `a`. -/
def Obligations.DivisionTruncatesTowardZero : Prop :=
  ∀ a b : Int, b ≠ 0 →
    (tdiv a b).natAbs = a.natAbs / b.natAbs ∧
    (tdiv a b < 0 ↔ ((a < 0 ∧ 0 < b) ∨ (0 < a ∧ b < 0)) ∧ 0 < (tdiv a b).natAbs) ∧
    trem a b = a - tdiv a b * b ∧ a = tdiv a b * b + trem a b ∧
    (trem a b).natAbs < b.natAbs ∧ (trem a b = 0 ∨ (0 < trem a b ∧ 0 < a) ∨ (trem a b < 0 ∧ a < 0))

/-- DIV M(X) with a divisor that is not zero (spec/42_arithmetic.md sections 2 and 3): MQ is the quotient rounded toward
zero and AC the remainder, both of the old AC; MBR = M[X], MAR = X, nothing else changes; except for -32768 / -1,
`s(old AC) = s(MQ) * s(d) + s(AC)`; in that case MQ = 0x8000 and AC = 0x0000. Signed is the spec's decision D3 (log 9),
the corner its decision D4 (log 10), MAR = X its decision D5 (log 11). -/
def Obligations.DivGivesQuotientAndRemainder : Prop :=
  ∀ (x : Addr) (s : State) (d : Word), s.mem.read x.toNat = d → d ≠ 0#16 → ∃ q r : Word,
    exec (.div x) s = .next { s with mar := x.setWidth 16, mbr := d, mq := q, ac := r } ∧
    q = BitVec.ofInt 16 (Int.tdiv s.ac.toInt d.toInt) ∧ r = BitVec.ofInt 16 (Int.tmod s.ac.toInt d.toInt) ∧
    (¬ (s.ac = 0x8000#16 ∧ d = 0xFFFF#16) → s.ac.toInt = q.toInt * d.toInt + r.toInt) ∧
    (s.ac = 0x8000#16 ∧ d = 0xFFFF#16 → q = 0x8000#16 ∧ r = 0x0000#16)

/-- A cycle that executes DIV with a zero divisor (spec/60_exceptions.md sections 1 and 4): RUN = Halted, CAUSE =
ArithmeticFault, AC, MQ and memory as before, MAR = X, MBR = 0, IR = 9, IBR = X, PC = (address + 1) mod 4096, and the
Diag is appended before any snapshot. The PC modulus is the spec's decision D1 (log 7), MAR = X its decision D5
(log 11), CAUSE and TRACE its decisions D7 and D13 (log 13). -/
def Obligations.DivideByZeroHaltsWithArithmeticFault : Prop :=
  ∀ (s : State) (x : Addr), s.run = .running → nextInstr s = .div x → s.mem.read x.toNat = 0#16 →
    ∃ t, step s = .next t ∧ Faulted t ∧ t.ac = s.ac ∧ t.mq = s.mq ∧ t.mem = s.mem ∧ t.mar = x.setWidth 16 ∧
      t.mbr = 0#16 ∧ t.ir = 0x9#4 ∧ t.ibr = x ∧ t.pc = BitVec.ofNat 16 ((s.pc.toNat + 1) % 4096) ∧
      t.inpos = s.inpos ∧ withoutSnaps t.trace = withoutSnaps s.trace ++ [.diag .arithmeticFault] ∧
      (s.pc.toNat ∉ s.bp → t.trace = s.trace ++ [.diag .arithmeticFault]) ∧
      (s.pc.toNat ∈ s.bp → ∃ r, t.trace = s.trace ++ [.diag .arithmeticFault, .snap r])

/-! ### Control transfer and HALT -/

/-- HALT (spec/43_control.md section 2): exactly the words 0x0000 .. 0x0FFF; RUN = Halted, CAUSE = NormalHalt, one Diag,
every other piece of state as Fetch and Decode left it; and no cycle follows. CAUSE and TRACE are the spec's decisions
D7 and D13 (log 13). That "no cycle" is shown as the Fault reason `halted` is the model's choice (log 5). -/
def Obligations.HaltEndsTheRunNormally : Prop :=
  (∀ w : Word, (∃ x, decode w = .halt x) ↔ w.toNat ≤ 0x0FFF) ∧
  (∀ (x : Addr) (s : State), exec (.halt x) s =
    .next { s with run := .halted, cause := some .normalHalt, trace := s.trace ++ [.diag .normalHalt] }) ∧
  ∀ (x : Addr) (s : State), s.run = .running → nextInstr s = .halt x →
    ∃ t, step s = .next t ∧ HaltsNormally t ∧ t.ac = s.ac ∧ t.mq = s.mq ∧ t.mem = s.mem ∧ step t = .fault .halted

/-- R92: JMP, word 0xA000 + X, sets PC to X and changes nothing else. -/
def Obligations.JmpSetsPc : Prop :=
  (∀ x : Addr, encode (.jmp x) = BitVec.ofNat 16 (0xA000 + x.toNat)) ∧
  ∀ (x : Addr) (s : State), exec (.jmp x) s = .next { s with pc := x.setWidth 16 }

/-- R93: JZ, word 0xB000 + X, sets PC to X exactly when AC is 0x0000, and changes nothing else. -/
def Obligations.JzJumpsOnZero : Prop :=
  (∀ x : Addr, encode (.jz x) = BitVec.ofNat 16 (0xB000 + x.toNat)) ∧
  ∀ (x : Addr) (s : State), exec (.jz x) s =
    .next { s with pc := if s.ac = 0x0000#16 then x.setWidth 16 else s.pc }

/-- R94: JNZ, word 0xC000 + X, sets PC to X exactly when AC is not 0x0000, and changes nothing else; with one operand
and one AC exactly one of JZ and JNZ is taken. -/
def Obligations.JnzJumpsOnNonzero : Prop :=
  (∀ x : Addr, encode (.jnz x) = BitVec.ofNat 16 (0xC000 + x.toNat)) ∧
  (∀ (x : Addr) (s : State), exec (.jnz x) s =
    .next { s with pc := if s.ac ≠ 0x0000#16 then x.setWidth 16 else s.pc }) ∧
  ∀ (x : Addr) (ac : Word), takesJump (.jnz x) ac ↔ ¬ takesJump (.jz x) ac

/-- R95: JPOS, word 0xD000 + X, sets PC to X exactly when `s(AC) >= 0`, equivalently when bit 15 of AC is 0 (zero
included), and changes nothing else. -/
def Obligations.JposJumpsOnNonnegative : Prop :=
  (∀ x : Addr, encode (.jpos x) = BitVec.ofNat 16 (0xD000 + x.toNat)) ∧
  (∀ (x : Addr) (s : State), exec (.jpos x) s =
    .next { s with pc := if 0 ≤ s.ac.toInt then x.setWidth 16 else s.pc }) ∧
  (∀ ac : Word, 0 ≤ ac.toInt ↔ ac.getLsbD 15 = false) ∧
  ∀ (x : Addr) (s : State), s.ac = 0x0000#16 → exec (.jpos x) s = .next { s with pc := x.setWidth 16 }

/-! ### Input and output -/

/-- IN (spec/44_io.md section 2): with a word available, IN puts `INPUT[INPOS]` into AC, adds one to INPOS, appends
`In(v)`, and changes nothing else; with a finite INPUT it is enabled only when INPOS is below its length; with an endless
INPUT it always completes, with the free value `Config.endlessInput k INPOS`; IN is the words 0xE000 + field. That an
endless INPUT is named by a number and its words are free values is the model's choice (log 3), and so is that the
constructor carries the ignored field (log 6). -/
def Obligations.InTakesNextInputWord : Prop :=
  (∀ x : Addr, encode (.inp x) = BitVec.ofNat 16 (0xE000 + x.toNat)) ∧
  (∀ (x : Addr) (s : State) (ws : List Word) (v : Word), s.input = .finite ws → ws[s.inpos]? = some v →
    exec (.inp x) s = .next { s with ac := v, inpos := s.inpos + 1, trace := s.trace ++ [.inp v] }) ∧
  (∀ (x : Addr) (s t : State) (ws : List Word), s.input = .finite ws → exec (.inp x) s = .next t →
    s.inpos < ws.length) ∧
  (∀ (x : Addr) (s : State) (k : Nat), s.input = .endless k →
    exec (.inp x) s = .next { s with
      ac := Config.endlessInput k s.inpos
      inpos := s.inpos + 1
      trace := s.trace ++ [.inp (Config.endlessInput k s.inpos)] })

/-- IN with INPUT exhausted does not complete, and a step reports `blocked` exactly in the blocked states
(spec/44_io.md section 1; the spec's decision D8; that "no cycle is enabled" is shown as a Fault reason is the model's
choice, log 4). -/
def Obligations.InBlocksExactlyWhenExhausted : Prop :=
  (∀ (x : Addr) (s : State) (ws : List Word), s.input = .finite ws → ws.length ≤ s.inpos →
    exec (.inp x) s = .fault .blocked) ∧
  (∀ s : State, step s = .fault .blocked ↔ Blocked s) ∧
  ∀ (s : State) (n : Nat), Blocked s → runCycles (n + 1) s = .fault .blocked

/-- R103: OUT appends `Out(AC)` to TRACE and changes nothing else; OUT is the words 0xF000 + field. -/
def Obligations.OutEmitsAc : Prop :=
  (∀ x : Addr, encode (.out x) = BitVec.ofNat 16 (0xF000 + x.toNat)) ∧
  ∀ (x : Addr) (s : State), exec (.out x) s = .next { s with trace := s.trace ++ [.out s.ac] }

/-! ### The cycle -/

/-- A step runs the decoded instruction (spec/40_cycle.md section 1): when RUN = Running and the word at PC decodes to
`i`, the step is `exec i` on the state that Fetch and Decode leave, followed by the Breakpoint check keyed on the
fetched address. PC modulo 4096 is the spec's decision D1 (log 7), the atomic cycle its decision D18 (log 17), pc_post its
decision D6 (log 12). -/
def Obligations.StepRunsTheDecodedInstruction : Prop :=
  ∀ (s d : State) (i : Instr) (w post : Word), s.run = .running → s.mem.read (maskAddr s.pc) = w → decode w = i →
    post = BitVec.ofNat 16 ((s.pc.toNat + 1) % 4096) →
    d = { s with pc := post, mar := s.pc, mbr := w, ir := w.extractLsb' 12 4, ibr := w.extractLsb' 0 12 } →
    (∀ t, exec i d = .next t → step s = .next
      (if s.pc.toNat ∈ t.bp then
        { t with trace := t.trace ++
          [.snap ⟨s.pc, post, t.mar, t.ibr.setWidth 16, t.ir.setWidth 16, t.mbr, t.ac, t.mq⟩] }
      else t)) ∧
    (∀ r, exec i d = .fault r → step s = .fault r)

/-- A cycle is enabled exactly when RUN = Running and the machine is not blocked (spec/40_cycle.md section 1), and no step
is refused. -/
def Obligations.CycleEnabledIffRunningAndNotBlocked : Prop :=
  ∀ s : State, ((∃ t, step s = .next t) ↔ s.run = .running ∧ ¬ Blocked s) ∧ ∀ r, step s ≠ .refused r

/-- When RUN = Halted there is no cycle, and once a run has reached Halted every longer run stops there: the final state
is the state at the end of the cycle that set RUN to Halted (spec/40_cycle.md section 3). That "no cycle" is shown as the
Fault reason `halted` is the model's choice (log 5). -/
def Obligations.HaltedIsTerminal : Prop :=
  (∀ s : State, s.run = .halted → step s = .fault .halted) ∧
  ∀ (s t : State) (n m : Nat), runCycles n s = .next t → t.run = .halted → n < m → runCycles m s = .fault .halted

/-- PC after each instruction (spec/40_cycle.md section 4): X for a jump whose condition holds on AC, else
(address + 1) mod 4096. The modulus is the spec's decision D1 (log 7). -/
def Obligations.PcAfterEachInstruction : Prop :=
  ∀ s t : State, step s = .next t →
    (takesJump (nextInstr s) s.ac → t.pc = (operandOf (nextInstr s)).setWidth 16) ∧
    (¬ takesJump (nextInstr s) s.ac → t.pc = BitVec.ofNat 16 ((s.pc.toNat + 1) % 4096))

/-- After `n` cycles without a taken jump PC has advanced by `n` modulo 4096; so 4096 such cycles return PC to its value,
having taken every value once (spec/40_cycle.md section 4; it holds under the spec's decision D1, log 7). -/
def Obligations.SequentialCyclesAdvancePcModulo4096 : Prop :=
  (∀ (n : Nat) (s t : State), s.pc.toNat < 4096 → noJumpFor n s → runCycles n s = .next t →
    t.pc.toNat = (s.pc.toNat + n) % 4096) ∧
  (∀ s t : State, s.pc.toNat < 4096 → noJumpFor 4096 s → runCycles 4096 s = .next t → t.pc = s.pc) ∧
  ∀ s t : State, s.pc.toNat < 4096 → noJumpFor 4096 s → runCycles 4096 s = .next t →
    ∀ a : Nat, a < 4096 → ∃! n : Nat, n < 4096 ∧ ∃ u, runCycles n s = .next u ∧ u.pc.toNat = a

/-- After every cycle MAR is the operand address if the instruction has a memory operand and the instruction's own
address if not, and MBR is the word that memory then holds at MAR (spec/20_memory.md section 2, spec/41_load_store.md
section 1). MAR on operand accesses is the spec's decision D5 (log 11). -/
def Obligations.MarAndMbrAfterEachCycle : Prop :=
  ∀ s t : State, step s = .next t →
    t.mar = (if accessesMemory (nextInstr s) then (operandOf (nextInstr s)).setWidth 16 else s.pc) ∧
    t.mbr = t.mem.read (maskAddr t.mar)

/-- The events of one cycle, in order: the Execute step's event if it has one, then the snapshot if the fetched address
is a breakpoint (spec/10_state.md section 8; the one ordered TRACE is the spec's decisions D13 and D16, log 13). -/
def Obligations.EventsOfOneCycleInOrder : Prop :=
  ∀ s t : State, step s = .next t →
    (s.pc.toNat ∉ s.bp → t.trace = s.trace ++ executeEvents (nextInstr s) s) ∧
    (s.pc.toNat ∈ s.bp → ∃ r, t.trace = s.trace ++ executeEvents (nextInstr s) s ++ [.snap r])

/-! ### Frames over all instructions -/

/-- Only STOR and STA write memory, and only the word at their operand address (spec/10_state.md section 6). -/
def Obligations.OnlyStoresWriteMemory : Prop :=
  ∀ (i : Instr) (s t : State), exec i s = .next t →
    (∀ a, t.mem.read a ≠ s.mem.read a → ∃ x, (i = .stor x ∨ i = .sta x) ∧ a = x.toNat) ∧
    ((∀ x, i ≠ .stor x ∧ i ≠ .sta x) → t.mem = s.mem)

/-- Who writes what (the access matrix of spec/10_state.md section 10): no handler writes IR, IBR, BP or INPUT; AC, MQ,
PC, INPOS, MAR and MBR change only in the instructions that the matrix marks. -/
def Obligations.HandlersWriteOnlyTheirRegisters : Prop :=
  ∀ (i : Instr) (s t : State), exec i s = .next t →
    t.ir = s.ir ∧ t.ibr = s.ibr ∧ t.bp = s.bp ∧ t.input = s.input ∧
    (t.ac ≠ s.ac → ∃ x, i = .load x ∨ i = .loadMq x ∨ i = .add x ∨ i = .sub x ∨ i = .mul x ∨ i = .div x ∨ i = .inp x) ∧
    (t.mq ≠ s.mq → ∃ x, i = .loadMqM x ∨ i = .mul x ∨ i = .div x) ∧
    (t.pc ≠ s.pc → ∃ x, i = .jmp x ∨ i = .jz x ∨ i = .jnz x ∨ i = .jpos x) ∧
    (t.inpos ≠ s.inpos → ∃ x, i = .inp x) ∧
    (t.mar ≠ s.mar ∨ t.mbr ≠ s.mbr → accessesMemory i = true)

/-- HALT and a DIV by zero are the only writers of RUN and CAUSE (spec/10_state.md sections 6 and 7,
spec/60_exceptions.md sections 1 and 3). CAUSE is the spec's decision D7 (log 13). -/
def Obligations.OnlyHaltAndDivideByZeroStop : Prop :=
  ∀ (i : Instr) (s t : State), exec i s = .next t → (t.run ≠ s.run ∨ t.cause ≠ s.cause) →
    t.run = .halted ∧
    ((∃ x, i = .halt x ∧ t.cause = some .normalHalt) ∨
      (∃ x, i = .div x ∧ s.mem.read x.toNat = 0#16 ∧ t.cause = some .arithmeticFault))

/-- `raise c` sets RUN and CAUSE and appends `Diag(c)`; nothing is saved or redirected: every other piece of state, PC
included, is as it was; and no cycle follows (spec/60_exceptions.md sections 1 and 4; CAUSE is the spec's decision D7,
log 13). That "no cycle" is shown as the Fault reason `halted` is the model's choice (log 5). -/
def Obligations.RaiseStopsAndRecordsCause : Prop :=
  ∀ (s : State) (c : HaltCause),
    s.raise c = { s with run := .halted, cause := some c, trace := s.trace ++ [.diag c] } ∧
    step (s.raise c) = .fault .halted

/-! ### The Breakpoint Monitor -/

/-- A cycle whose pre-fetch PC is in BP appends one snapshot as its last event, whose eight fields are the spec's; a
cycle whose pre-fetch PC is not in BP appends none (spec/45_snapshot_monitor.md; pc_post is the spec's decision D6,
log 12; the PC modulus D1, log 7). -/
def Obligations.SnapshotShowsEndOfCycle : Prop :=
  ∀ s t : State, step s = .next t →
    (s.pc.toNat ∈ s.bp → ∃ es, t.trace = es ++ [.snap
      ⟨s.pc, BitVec.ofNat 16 ((s.pc.toNat + 1) % 4096), t.mar, t.ibr.setWidth 16, t.ir.setWidth 16, t.mbr, t.ac, t.mq⟩] ∧
      snapsOf es = snapsOf s.trace) ∧
    (s.pc.toNat ∉ s.bp → snapsOf t.trace = snapsOf s.trace)

/-- R114: one snapshot per visit: over any run the snapshots appended are, in order, one for each completed cycle whose
pre-fetch PC is in BP; so their number is the number of those cycles. The breakpoint is not removed, and with any other
set of breakpoints the machine completes the same number of cycles. -/
def Obligations.OneSnapshotPerVisit : Prop :=
  (∀ (n : Nat) (s t : State), runCycles n s = .next t →
    (visits n s).length = n ∧ t.bp = s.bp ∧
    (snapsOf t.trace).map Snapshot.pcPre =
      (snapsOf s.trace).map Snapshot.pcPre ++ (visits n s).filter (fun p => decide (p.toNat ∈ s.bp))) ∧
  (∀ (n : Nat) (s t : State), runCycles n s = .next t → s.trace = [] →
    (snapsOf t.trace).length = (visits n s).countP (fun p => decide (p.toNat ∈ s.bp))) ∧
  ∀ (n : Nat) (s t : State) (b : List Nat), runCycles n s = .next t →
    ∃ u, runCycles n { s with bp := b } = .next u ∧ visits n { s with bp := b } = visits n s

/-- The monitor has no effect on the machine: with any BP a run of any length ends as the run with BP empty does, with the
same registers, memory, RUN, CAUSE, INPOS and the same In, Out and Diag events; only the Snap events differ
(spec/45_snapshot_monitor.md). -/
def Obligations.MonitorHasNoEffectOnTheMachine : Prop :=
  ∀ (n : Nat) (s : State) (b : List Nat),
    unobserved (runCycles n { s with bp := b }) = unobserved (runCycles n { s with bp := [] })

/-! ### Memory and instruction fetch -/

/-- A store is seen by every later fetch of its word, beginning with the next cycle: after a STOR the word at X is the
instruction that AC names, after a STA it is the old opcode with the low 12 bits of AC (spec/20_memory.md section 5). -/
def Obligations.StoreIsSeenByTheNextFetch : Prop :=
  ∀ (s t : State) (x : Addr), step s = .next t →
    (nextInstr s = .stor x → nextInstr (t.setPc (x.setWidth 16)) = decode s.ac) ∧
    (nextInstr s = .sta x →
      nextInstr (t.setPc (x.setWidth 16)) = instrOf (opField (s.mem.read x.toNat)) (addrField s.ac))

/-- A running machine that fetches a word 0x0000 halts normally in that cycle; so the reset machine with nothing loaded
does (spec/70_reset_and_hazards.md section 4, vector V77). -/
def Obligations.UnloadedMemoryHaltsNormally : Prop :=
  (∀ s : State, s.run = .running → s.mem.read (maskAddr s.pc) = 0x0000#16 →
    ∃ t, step s = .next t ∧ HaltsNormally t ∧ t.mem = s.mem ∧ t.ac = s.ac ∧ t.mq = s.mq) ∧
  ∃ t, step State.reset = .next t ∧ HaltsNormally t

/-! ### Reset and launch -/

/-- R26: the reset values. (BP and INPUT are launch parameters, not elements of the rule's table; nothing is said of
them.) -/
def Obligations.ResetValues : Prop :=
  State.reset.pc = 0x0000#16 ∧ State.reset.mar = 0x0000#16 ∧ State.reset.ir = 0x0#4 ∧ State.reset.ibr = 0x000#12 ∧
  State.reset.mbr = 0x0000#16 ∧ State.reset.ac = 0x0000#16 ∧ State.reset.mq = 0x0000#16 ∧
  (∀ a : Nat, a < 4096 → State.reset.mem.read a = 0x0000#16) ∧ State.reset.run = .running ∧
  State.reset.cause = none ∧ State.reset.trace = [] ∧ State.reset.inpos = 0

/-- Launch (spec/70_reset_and_hazards.md sections 1 and 2; the spec's decision D10, log 15): an image with an address
above 0x0FFF is refused; any other is loaded: the last pair of an address gives its word, a word that no pair names is
0x0000, the registers are the reset ones, BP and INPUT are as given. -/
def Obligations.LaunchLoadsImage : Prop :=
  ∀ (im : Image) (bp : List Nat) (input : Input),
    ((∃ p ∈ im, 0x0FFF < p.1) → launch im bp input = none) ∧
    ((∀ p ∈ im, p.1 ≤ 0x0FFF) → ∃ m : Memory,
      launch im bp input = some { State.reset with mem := m, bp := bp, input := input } ∧
      (∀ (before after : Image) (a : Nat) (v : Word), im = before ++ (a, v) :: after → (∀ p ∈ after, p.1 ≠ a) →
        m.read a = v) ∧
      ∀ a : Nat, (∀ p ∈ im, p.1 ≠ a) → m.read a = 0x0000#16)

/-! ### Invariants -/

/-- Every cycle keeps PC and MAR in 0 .. 4095 and memory in its canonical form (spec/10_state.md sections 3, 4 and 6;
that PC stays below 4096 is the spec's decision D1, log 7; the canonical form is the model's, log 1). -/
def Obligations.StepKeepsAddressesInRange : Prop :=
  ∀ s t : State, AddressesInRange s → step s = .next t → AddressesInRange t

/-- Every cycle keeps CAUSE in agreement with RUN and with the one Diag in TRACE, and CAUSE is never DecodeFault
(spec/10_state.md section 7, spec/60_exceptions.md section 1; CAUSE is the spec's decision D7, log 13). -/
def Obligations.StepKeepsCauseAgreement : Prop :=
  ∀ s t : State, CauseAgrees s → step s = .next t → CauseAgrees t

/-- Every cycle keeps the In events equal to the first INPOS words of INPUT (spec/10_state.md section 8; the stream
abstraction is the spec's decision D13, log 13). -/
def Obligations.StepKeepsInputAccounted : Prop :=
  ∀ s t : State, InputAccounted s → step s = .next t → InputAccounted t

/-- Every cycle keeps the snapshots faithful: taken at a breakpoint, pc_post the next sequential address, IR and IBR
widened with zeros (spec/45_snapshot_monitor.md; pc_post is the spec's decision D6, log 12). -/
def Obligations.StepKeepsSnapshotsFaithful : Prop :=
  ∀ s t : State, SnapshotsFaithful s → step s = .next t → SnapshotsFaithful t

/-- The reset state and every launched state meet the four invariants (spec/10_state.md section 9,
spec/70_reset_and_hazards.md section 2). -/
def Obligations.ResetAndLaunchMeetInvariants : Prop :=
  (AddressesInRange State.reset ∧ CauseAgrees State.reset ∧ InputAccounted State.reset ∧
    SnapshotsFaithful State.reset) ∧
  ∀ (im : Image) (bp : List Nat) (input : Input) (s : State), launch im bp input = some s →
    AddressesInRange s ∧ CauseAgrees s ∧ InputAccounted s ∧ SnapshotsFaithful s
end

