-- ==== Sys2Proof/Laws/Decode.lean ====
section
/-! SUPPORT. The fields of a word that is put together from two fields. -/

namespace Sys2Proof

@[simp] theorem opField_append (op : Opcode) (x : Addr) : opField (op ++ x : BitVec 16) = op := by
  ext i hi
  simp only [opField, BitVec.getElem_extractLsb', BitVec.getLsbD_append]
  simp [hi]

@[simp] theorem addrField_append (op : Opcode) (x : Addr) : addrField (op ++ x : BitVec 16) = x := by
  ext i hi
  simp only [addrField, BitVec.getElem_extractLsb', BitVec.getLsbD_append]
  simp [hi]

theorem append_fields (w : Word) : (opField w ++ addrField w : BitVec 16) = w := by
  ext i hi
  simp only [BitVec.getElem_append, opField, addrField, BitVec.getElem_extractLsb']
  split
  · simp [hi]
  · rw [Nat.add_sub_cancel' (by omega)]
    simp [hi]

end Sys2Proof
end

