-- ==== Sys2Proof/Laws/State.lean ====
section
/-! SUPPORT. One lemma per field per update of State, so that no proof unfolds a record update. -/

namespace Sys2Proof.Machine

section
variable (s : State) (v : Word)
@[simp] theorem State.setPc_pc : (s.setPc v).pc = v := rfl
@[simp] theorem State.setPc_mar : (s.setPc v).mar = s.mar := rfl
@[simp] theorem State.setPc_ir : (s.setPc v).ir = s.ir := rfl
@[simp] theorem State.setPc_ibr : (s.setPc v).ibr = s.ibr := rfl
@[simp] theorem State.setPc_mbr : (s.setPc v).mbr = s.mbr := rfl
@[simp] theorem State.setPc_ac : (s.setPc v).ac = s.ac := rfl
@[simp] theorem State.setPc_mq : (s.setPc v).mq = s.mq := rfl
@[simp] theorem State.setPc_mem : (s.setPc v).mem = s.mem := rfl
@[simp] theorem State.setPc_run : (s.setPc v).run = s.run := rfl
@[simp] theorem State.setPc_cause : (s.setPc v).cause = s.cause := rfl
@[simp] theorem State.setPc_trace : (s.setPc v).trace = s.trace := rfl
@[simp] theorem State.setPc_inpos : (s.setPc v).inpos = s.inpos := rfl
@[simp] theorem State.setPc_bp : (s.setPc v).bp = s.bp := rfl
@[simp] theorem State.setPc_input : (s.setPc v).input = s.input := rfl
end

section
variable (s : State) (v : Word)
@[simp] theorem State.setMar_pc : (s.setMar v).pc = s.pc := rfl
@[simp] theorem State.setMar_mar : (s.setMar v).mar = v := rfl
@[simp] theorem State.setMar_ir : (s.setMar v).ir = s.ir := rfl
@[simp] theorem State.setMar_ibr : (s.setMar v).ibr = s.ibr := rfl
@[simp] theorem State.setMar_mbr : (s.setMar v).mbr = s.mbr := rfl
@[simp] theorem State.setMar_ac : (s.setMar v).ac = s.ac := rfl
@[simp] theorem State.setMar_mq : (s.setMar v).mq = s.mq := rfl
@[simp] theorem State.setMar_mem : (s.setMar v).mem = s.mem := rfl
@[simp] theorem State.setMar_run : (s.setMar v).run = s.run := rfl
@[simp] theorem State.setMar_cause : (s.setMar v).cause = s.cause := rfl
@[simp] theorem State.setMar_trace : (s.setMar v).trace = s.trace := rfl
@[simp] theorem State.setMar_inpos : (s.setMar v).inpos = s.inpos := rfl
@[simp] theorem State.setMar_bp : (s.setMar v).bp = s.bp := rfl
@[simp] theorem State.setMar_input : (s.setMar v).input = s.input := rfl
end

section
variable (s : State) (v : Opcode)
@[simp] theorem State.setIr_pc : (s.setIr v).pc = s.pc := rfl
@[simp] theorem State.setIr_mar : (s.setIr v).mar = s.mar := rfl
@[simp] theorem State.setIr_ir : (s.setIr v).ir = v := rfl
@[simp] theorem State.setIr_ibr : (s.setIr v).ibr = s.ibr := rfl
@[simp] theorem State.setIr_mbr : (s.setIr v).mbr = s.mbr := rfl
@[simp] theorem State.setIr_ac : (s.setIr v).ac = s.ac := rfl
@[simp] theorem State.setIr_mq : (s.setIr v).mq = s.mq := rfl
@[simp] theorem State.setIr_mem : (s.setIr v).mem = s.mem := rfl
@[simp] theorem State.setIr_run : (s.setIr v).run = s.run := rfl
@[simp] theorem State.setIr_cause : (s.setIr v).cause = s.cause := rfl
@[simp] theorem State.setIr_trace : (s.setIr v).trace = s.trace := rfl
@[simp] theorem State.setIr_inpos : (s.setIr v).inpos = s.inpos := rfl
@[simp] theorem State.setIr_bp : (s.setIr v).bp = s.bp := rfl
@[simp] theorem State.setIr_input : (s.setIr v).input = s.input := rfl
end

section
variable (s : State) (v : Addr)
@[simp] theorem State.setIbr_pc : (s.setIbr v).pc = s.pc := rfl
@[simp] theorem State.setIbr_mar : (s.setIbr v).mar = s.mar := rfl
@[simp] theorem State.setIbr_ir : (s.setIbr v).ir = s.ir := rfl
@[simp] theorem State.setIbr_ibr : (s.setIbr v).ibr = v := rfl
@[simp] theorem State.setIbr_mbr : (s.setIbr v).mbr = s.mbr := rfl
@[simp] theorem State.setIbr_ac : (s.setIbr v).ac = s.ac := rfl
@[simp] theorem State.setIbr_mq : (s.setIbr v).mq = s.mq := rfl
@[simp] theorem State.setIbr_mem : (s.setIbr v).mem = s.mem := rfl
@[simp] theorem State.setIbr_run : (s.setIbr v).run = s.run := rfl
@[simp] theorem State.setIbr_cause : (s.setIbr v).cause = s.cause := rfl
@[simp] theorem State.setIbr_trace : (s.setIbr v).trace = s.trace := rfl
@[simp] theorem State.setIbr_inpos : (s.setIbr v).inpos = s.inpos := rfl
@[simp] theorem State.setIbr_bp : (s.setIbr v).bp = s.bp := rfl
@[simp] theorem State.setIbr_input : (s.setIbr v).input = s.input := rfl
end

section
variable (s : State) (v : Word)
@[simp] theorem State.setMbr_pc : (s.setMbr v).pc = s.pc := rfl
@[simp] theorem State.setMbr_mar : (s.setMbr v).mar = s.mar := rfl
@[simp] theorem State.setMbr_ir : (s.setMbr v).ir = s.ir := rfl
@[simp] theorem State.setMbr_ibr : (s.setMbr v).ibr = s.ibr := rfl
@[simp] theorem State.setMbr_mbr : (s.setMbr v).mbr = v := rfl
@[simp] theorem State.setMbr_ac : (s.setMbr v).ac = s.ac := rfl
@[simp] theorem State.setMbr_mq : (s.setMbr v).mq = s.mq := rfl
@[simp] theorem State.setMbr_mem : (s.setMbr v).mem = s.mem := rfl
@[simp] theorem State.setMbr_run : (s.setMbr v).run = s.run := rfl
@[simp] theorem State.setMbr_cause : (s.setMbr v).cause = s.cause := rfl
@[simp] theorem State.setMbr_trace : (s.setMbr v).trace = s.trace := rfl
@[simp] theorem State.setMbr_inpos : (s.setMbr v).inpos = s.inpos := rfl
@[simp] theorem State.setMbr_bp : (s.setMbr v).bp = s.bp := rfl
@[simp] theorem State.setMbr_input : (s.setMbr v).input = s.input := rfl
end

section
variable (s : State) (v : Word)
@[simp] theorem State.setAc_pc : (s.setAc v).pc = s.pc := rfl
@[simp] theorem State.setAc_mar : (s.setAc v).mar = s.mar := rfl
@[simp] theorem State.setAc_ir : (s.setAc v).ir = s.ir := rfl
@[simp] theorem State.setAc_ibr : (s.setAc v).ibr = s.ibr := rfl
@[simp] theorem State.setAc_mbr : (s.setAc v).mbr = s.mbr := rfl
@[simp] theorem State.setAc_ac : (s.setAc v).ac = v := rfl
@[simp] theorem State.setAc_mq : (s.setAc v).mq = s.mq := rfl
@[simp] theorem State.setAc_mem : (s.setAc v).mem = s.mem := rfl
@[simp] theorem State.setAc_run : (s.setAc v).run = s.run := rfl
@[simp] theorem State.setAc_cause : (s.setAc v).cause = s.cause := rfl
@[simp] theorem State.setAc_trace : (s.setAc v).trace = s.trace := rfl
@[simp] theorem State.setAc_inpos : (s.setAc v).inpos = s.inpos := rfl
@[simp] theorem State.setAc_bp : (s.setAc v).bp = s.bp := rfl
@[simp] theorem State.setAc_input : (s.setAc v).input = s.input := rfl
end

section
variable (s : State) (v : Word)
@[simp] theorem State.setMq_pc : (s.setMq v).pc = s.pc := rfl
@[simp] theorem State.setMq_mar : (s.setMq v).mar = s.mar := rfl
@[simp] theorem State.setMq_ir : (s.setMq v).ir = s.ir := rfl
@[simp] theorem State.setMq_ibr : (s.setMq v).ibr = s.ibr := rfl
@[simp] theorem State.setMq_mbr : (s.setMq v).mbr = s.mbr := rfl
@[simp] theorem State.setMq_ac : (s.setMq v).ac = s.ac := rfl
@[simp] theorem State.setMq_mq : (s.setMq v).mq = v := rfl
@[simp] theorem State.setMq_mem : (s.setMq v).mem = s.mem := rfl
@[simp] theorem State.setMq_run : (s.setMq v).run = s.run := rfl
@[simp] theorem State.setMq_cause : (s.setMq v).cause = s.cause := rfl
@[simp] theorem State.setMq_trace : (s.setMq v).trace = s.trace := rfl
@[simp] theorem State.setMq_inpos : (s.setMq v).inpos = s.inpos := rfl
@[simp] theorem State.setMq_bp : (s.setMq v).bp = s.bp := rfl
@[simp] theorem State.setMq_input : (s.setMq v).input = s.input := rfl
end

section
variable (s : State) (m : Memory)
@[simp] theorem State.setMem_pc : (s.setMem m).pc = s.pc := rfl
@[simp] theorem State.setMem_mar : (s.setMem m).mar = s.mar := rfl
@[simp] theorem State.setMem_ir : (s.setMem m).ir = s.ir := rfl
@[simp] theorem State.setMem_ibr : (s.setMem m).ibr = s.ibr := rfl
@[simp] theorem State.setMem_mbr : (s.setMem m).mbr = s.mbr := rfl
@[simp] theorem State.setMem_ac : (s.setMem m).ac = s.ac := rfl
@[simp] theorem State.setMem_mq : (s.setMem m).mq = s.mq := rfl
@[simp] theorem State.setMem_mem : (s.setMem m).mem = m := rfl
@[simp] theorem State.setMem_run : (s.setMem m).run = s.run := rfl
@[simp] theorem State.setMem_cause : (s.setMem m).cause = s.cause := rfl
@[simp] theorem State.setMem_trace : (s.setMem m).trace = s.trace := rfl
@[simp] theorem State.setMem_inpos : (s.setMem m).inpos = s.inpos := rfl
@[simp] theorem State.setMem_bp : (s.setMem m).bp = s.bp := rfl
@[simp] theorem State.setMem_input : (s.setMem m).input = s.input := rfl
end

section
variable (s : State) (n : Nat)
@[simp] theorem State.setInpos_pc : (s.setInpos n).pc = s.pc := rfl
@[simp] theorem State.setInpos_mar : (s.setInpos n).mar = s.mar := rfl
@[simp] theorem State.setInpos_ir : (s.setInpos n).ir = s.ir := rfl
@[simp] theorem State.setInpos_ibr : (s.setInpos n).ibr = s.ibr := rfl
@[simp] theorem State.setInpos_mbr : (s.setInpos n).mbr = s.mbr := rfl
@[simp] theorem State.setInpos_ac : (s.setInpos n).ac = s.ac := rfl
@[simp] theorem State.setInpos_mq : (s.setInpos n).mq = s.mq := rfl
@[simp] theorem State.setInpos_mem : (s.setInpos n).mem = s.mem := rfl
@[simp] theorem State.setInpos_run : (s.setInpos n).run = s.run := rfl
@[simp] theorem State.setInpos_cause : (s.setInpos n).cause = s.cause := rfl
@[simp] theorem State.setInpos_trace : (s.setInpos n).trace = s.trace := rfl
@[simp] theorem State.setInpos_inpos : (s.setInpos n).inpos = n := rfl
@[simp] theorem State.setInpos_bp : (s.setInpos n).bp = s.bp := rfl
@[simp] theorem State.setInpos_input : (s.setInpos n).input = s.input := rfl
end

section
variable (s : State) (e : Event)
@[simp] theorem State.emit_pc : (s.emit e).pc = s.pc := rfl
@[simp] theorem State.emit_mar : (s.emit e).mar = s.mar := rfl
@[simp] theorem State.emit_ir : (s.emit e).ir = s.ir := rfl
@[simp] theorem State.emit_ibr : (s.emit e).ibr = s.ibr := rfl
@[simp] theorem State.emit_mbr : (s.emit e).mbr = s.mbr := rfl
@[simp] theorem State.emit_ac : (s.emit e).ac = s.ac := rfl
@[simp] theorem State.emit_mq : (s.emit e).mq = s.mq := rfl
@[simp] theorem State.emit_mem : (s.emit e).mem = s.mem := rfl
@[simp] theorem State.emit_run : (s.emit e).run = s.run := rfl
@[simp] theorem State.emit_cause : (s.emit e).cause = s.cause := rfl
@[simp] theorem State.emit_trace : (s.emit e).trace = s.trace ++ [e] := rfl
@[simp] theorem State.emit_inpos : (s.emit e).inpos = s.inpos := rfl
@[simp] theorem State.emit_bp : (s.emit e).bp = s.bp := rfl
@[simp] theorem State.emit_input : (s.emit e).input = s.input := rfl
end

section
variable (s : State) (c : HaltCause)
@[simp] theorem State.raise_pc : (s.raise c).pc = s.pc := rfl
@[simp] theorem State.raise_mar : (s.raise c).mar = s.mar := rfl
@[simp] theorem State.raise_ir : (s.raise c).ir = s.ir := rfl
@[simp] theorem State.raise_ibr : (s.raise c).ibr = s.ibr := rfl
@[simp] theorem State.raise_mbr : (s.raise c).mbr = s.mbr := rfl
@[simp] theorem State.raise_ac : (s.raise c).ac = s.ac := rfl
@[simp] theorem State.raise_mq : (s.raise c).mq = s.mq := rfl
@[simp] theorem State.raise_mem : (s.raise c).mem = s.mem := rfl
@[simp] theorem State.raise_run : (s.raise c).run = .halted := rfl
@[simp] theorem State.raise_cause : (s.raise c).cause = some c := rfl
@[simp] theorem State.raise_trace : (s.raise c).trace = s.trace ++ [.diag c] := rfl
@[simp] theorem State.raise_inpos : (s.raise c).inpos = s.inpos := rfl
@[simp] theorem State.raise_bp : (s.raise c).bp = s.bp := rfl
@[simp] theorem State.raise_input : (s.raise c).input = s.input := rfl
end

end Sys2Proof.Machine
end

