-- ==== Sys2Proof/Laws/Ops.lean ====
section
/-! SUPPORT. One lemma per shared operation that says once everything it does. -/

namespace Sys2Proof.Machine

/-! ### Addresses -/

theorem maskAddr_eq_mod (addr : Word) : maskAddr addr = addr.toNat % 4096 := by
  simp [maskAddr, BitVec.extractLsb'_toNat]

theorem maskAddr_lt (addr : Word) : maskAddr addr < Config.memoryWords := by
  rw [maskAddr_eq_mod]
  exact Nat.mod_lt _ (by decide)

theorem zext16_toNat {n : Nat} (h : n ≤ 16) (v : BitVec n) : (zext16 v).toNat = v.toNat := by
  simp only [zext16, BitVec.toNat_setWidth]
  exact Nat.mod_eq_of_lt (Nat.lt_of_lt_of_le v.isLt (Nat.pow_le_pow_right (by decide) h))

/-- The operand address reaches memory unchanged by the mask. -/
@[simp] theorem maskAddr_zext16 (x : Addr) : maskAddr (zext16 x) = x.toNat := by
  rw [maskAddr_eq_mod, zext16_toNat (by decide)]
  exact Nat.mod_eq_of_lt x.isLt

theorem zext16_lt (x : Addr) : (zext16 x).toNat < Config.memoryWords := by
  rw [zext16_toNat (by decide)]
  exact x.isLt

theorem nextPc_toNat (pc : Word) : (nextPc pc).toNat = (pc.toNat + 1) % 4096 := by
  simp only [nextPc, Config.memoryWords, BitVec.toNat_ofNat]
  omega

theorem nextPc_lt (pc : Word) : (nextPc pc).toNat < Config.memoryWords := by
  rw [nextPc_toNat]
  exact Nat.mod_lt _ (by decide)

/-! ### Operand accesses -/

theorem State.readOperand_eq (s : State) (x : Addr) :
    s.readOperand x =
      (s.mem.read x.toNat, { s with mar := zext16 x, mbr := s.mem.read x.toNat }) := by
  rw [← maskAddr_zext16 x]
  rfl

theorem State.writeOperand_eq (s : State) (x : Addr) (v : Word) :
    s.writeOperand x v = { s with mar := zext16 x, mbr := v, mem := s.mem.write x.toNat v } := by
  rw [← maskAddr_zext16 x]
  rfl

theorem State.patchOperand_eq (s : State) (x : Addr) (v : Word) :
    s.patchOperand x v =
      { s with
        mar := zext16 x
        mbr := patchWord (s.mem.read x.toNat) v
        mem := s.mem.write x.toNat (patchWord (s.mem.read x.toNat) v) } := by
  rw [← maskAddr_zext16 x]
  rfl

theorem State.jumpTo_eq (s : State) (x : Addr) : s.jumpTo x = { s with pc := zext16 x } := rfl

/-! ### Input -/

/-- The next input word, and nothing else than INPOS and TRACE changed, or none when there is no word. -/
theorem State.inNext_eq (s : State) :
    s.inNext =
      (s.input.word? s.inpos).map fun v =>
        (v, { s with inpos := s.inpos + 1, trace := s.trace ++ [.inp v] }) := by
  unfold State.inNext
  cases s.input.word? s.inpos <;> rfl

@[simp] theorem Input.word?_endless (k n : Nat) :
    (Input.endless k).word? n = some (Config.endlessInput k n) := rfl

@[simp] theorem Input.word?_finite (ws : List Word) (n : Nat) : (Input.finite ws).word? n = ws[n]? := rfl

/-! ### The cycle's fixed steps -/

/-- Fetch and Decode change PC, MAR, MBR, IR and IBR, and nothing else. -/
theorem State.fetchDecode_eq (s : State) :
    s.fetchDecode =
      { s with
        pc := nextPc s.pc
        mar := s.pc
        mbr := s.mem.read (maskAddr s.pc)
        ir := opField (s.mem.read (maskAddr s.pc))
        ibr := addrField (s.mem.read (maskAddr s.pc)) } := rfl

section
variable (s : State)
@[simp] theorem State.fetchDecode_pc : s.fetchDecode.pc = nextPc s.pc := rfl
@[simp] theorem State.fetchDecode_mar : s.fetchDecode.mar = s.pc := rfl
@[simp] theorem State.fetchDecode_mbr : s.fetchDecode.mbr = s.mem.read (maskAddr s.pc) := rfl
@[simp] theorem State.fetchDecode_ir : s.fetchDecode.ir = opField (s.mem.read (maskAddr s.pc)) := rfl
@[simp] theorem State.fetchDecode_ibr : s.fetchDecode.ibr = addrField (s.mem.read (maskAddr s.pc)) := rfl
@[simp] theorem State.fetchDecode_ac : s.fetchDecode.ac = s.ac := rfl
@[simp] theorem State.fetchDecode_mq : s.fetchDecode.mq = s.mq := rfl
@[simp] theorem State.fetchDecode_mem : s.fetchDecode.mem = s.mem := rfl
@[simp] theorem State.fetchDecode_run : s.fetchDecode.run = s.run := rfl
@[simp] theorem State.fetchDecode_cause : s.fetchDecode.cause = s.cause := rfl
@[simp] theorem State.fetchDecode_trace : s.fetchDecode.trace = s.trace := rfl
@[simp] theorem State.fetchDecode_inpos : s.fetchDecode.inpos = s.inpos := rfl
@[simp] theorem State.fetchDecode_bp : s.fetchDecode.bp = s.bp := rfl
@[simp] theorem State.fetchDecode_input : s.fetchDecode.input = s.input := rfl
end

theorem shouldSnapshot_iff (bp : List Nat) (a : Nat) : shouldSnapshot bp a = true ↔ a ∈ bp := by
  simp [shouldSnapshot]

/-- The Breakpoint check appends one snapshot or does nothing. -/
theorem State.breakpointCheck_eq (s : State) (pre post : Word) :
    s.breakpointCheck pre post =
      if pre.toNat ∈ s.bp then { s with trace := s.trace ++ [.snap (s.snapshot pre post)] } else s := by
  simp only [State.breakpointCheck, shouldSnapshot_iff]
  rfl

section
variable (s : State) (pre post : Word)
@[simp] theorem State.breakpointCheck_pc : (s.breakpointCheck pre post).pc = s.pc := by
  rw [State.breakpointCheck_eq]; split <;> rfl
@[simp] theorem State.breakpointCheck_mar : (s.breakpointCheck pre post).mar = s.mar := by
  rw [State.breakpointCheck_eq]; split <;> rfl
@[simp] theorem State.breakpointCheck_ir : (s.breakpointCheck pre post).ir = s.ir := by
  rw [State.breakpointCheck_eq]; split <;> rfl
@[simp] theorem State.breakpointCheck_ibr : (s.breakpointCheck pre post).ibr = s.ibr := by
  rw [State.breakpointCheck_eq]; split <;> rfl
@[simp] theorem State.breakpointCheck_mbr : (s.breakpointCheck pre post).mbr = s.mbr := by
  rw [State.breakpointCheck_eq]; split <;> rfl
@[simp] theorem State.breakpointCheck_ac : (s.breakpointCheck pre post).ac = s.ac := by
  rw [State.breakpointCheck_eq]; split <;> rfl
@[simp] theorem State.breakpointCheck_mq : (s.breakpointCheck pre post).mq = s.mq := by
  rw [State.breakpointCheck_eq]; split <;> rfl
@[simp] theorem State.breakpointCheck_mem : (s.breakpointCheck pre post).mem = s.mem := by
  rw [State.breakpointCheck_eq]; split <;> rfl
@[simp] theorem State.breakpointCheck_run : (s.breakpointCheck pre post).run = s.run := by
  rw [State.breakpointCheck_eq]; split <;> rfl
@[simp] theorem State.breakpointCheck_cause : (s.breakpointCheck pre post).cause = s.cause := by
  rw [State.breakpointCheck_eq]; split <;> rfl
@[simp] theorem State.breakpointCheck_inpos : (s.breakpointCheck pre post).inpos = s.inpos := by
  rw [State.breakpointCheck_eq]; split <;> rfl
@[simp] theorem State.breakpointCheck_bp : (s.breakpointCheck pre post).bp = s.bp := by
  rw [State.breakpointCheck_eq]; split <;> rfl
@[simp] theorem State.breakpointCheck_input : (s.breakpointCheck pre post).input = s.input := by
  rw [State.breakpointCheck_eq]; split <;> rfl
end

end Sys2Proof.Machine
end

