-- ==== Sys2Proof/Laws/PerInstr.lean ====
section
/-! SUPPORT. The per-instruction family `TableRow`: the word of an instruction meets the row of the opcode table that it
stands for, "match = `op << 12`, mask = 0xF000 for every row" (spec/30_encoding.md R53). -/

namespace Sys2Proof.Laws.TableRow

/-- The "match" column of spec/opcode_table.json. -/
def rowMatch : Instr → Word
  | .halt _ => 0x0000#16
  | .load _ => 0x1000#16
  | .loadMq _ => 0x2000#16
  | .loadMqM _ => 0x3000#16
  | .stor _ => 0x4000#16
  | .sta _ => 0x5000#16
  | .add _ => 0x6000#16
  | .sub _ => 0x7000#16
  | .mul _ => 0x8000#16
  | .div _ => 0x9000#16
  | .jmp _ => 0xA000#16
  | .jz _ => 0xB000#16
  | .jnz _ => 0xC000#16
  | .jpos _ => 0xD000#16
  | .inp _ => 0xE000#16
  | .out _ => 0xF000#16

/-- The encoded word, masked by the row's mask, is the row's match. -/
def Statement (i : Instr) : Prop := encode i &&& 0xF000#16 = rowMatch i

theorem append_and_mask (op : Opcode) (x : Addr) :
    (op ++ x : BitVec 16) &&& 0xF000#16 = (op ++ 0#12 : BitVec 16) := by
  rw [show (0xF000#16 : BitVec 16) = (BitVec.allOnes 4 ++ 0#12 : BitVec 16) by decide]
  ext i hi
  simp only [BitVec.getElem_and, BitVec.getElem_append]
  split
  · simp
  · simp only [BitVec.getElem_allOnes, Bool.and_true]

theorem statement_of {i : Instr} (op : Opcode) (w : Word) (hop : opcodeOf i = op) (hw : rowMatch i = w)
    (h : (op ++ 0#12 : BitVec 16) = w) : Statement i := by
  rw [Statement, encode, append_and_mask, hop, h, hw]

theorem halt (x : Addr) : Statement (.halt x) := statement_of 0x0#4 0x0000#16 rfl rfl (by decide)
theorem load (x : Addr) : Statement (.load x) := statement_of 0x1#4 0x1000#16 rfl rfl (by decide)
theorem loadMq (x : Addr) : Statement (.loadMq x) := statement_of 0x2#4 0x2000#16 rfl rfl (by decide)
theorem loadMqM (x : Addr) : Statement (.loadMqM x) := statement_of 0x3#4 0x3000#16 rfl rfl (by decide)
theorem stor (x : Addr) : Statement (.stor x) := statement_of 0x4#4 0x4000#16 rfl rfl (by decide)
theorem sta (x : Addr) : Statement (.sta x) := statement_of 0x5#4 0x5000#16 rfl rfl (by decide)
theorem add (x : Addr) : Statement (.add x) := statement_of 0x6#4 0x6000#16 rfl rfl (by decide)
theorem sub (x : Addr) : Statement (.sub x) := statement_of 0x7#4 0x7000#16 rfl rfl (by decide)
theorem mul (x : Addr) : Statement (.mul x) := statement_of 0x8#4 0x8000#16 rfl rfl (by decide)
theorem div (x : Addr) : Statement (.div x) := statement_of 0x9#4 0x9000#16 rfl rfl (by decide)
theorem jmp (x : Addr) : Statement (.jmp x) := statement_of 0xA#4 0xA000#16 rfl rfl (by decide)
theorem jz (x : Addr) : Statement (.jz x) := statement_of 0xB#4 0xB000#16 rfl rfl (by decide)
theorem jnz (x : Addr) : Statement (.jnz x) := statement_of 0xC#4 0xC000#16 rfl rfl (by decide)
theorem jpos (x : Addr) : Statement (.jpos x) := statement_of 0xD#4 0xD000#16 rfl rfl (by decide)
theorem inp (x : Addr) : Statement (.inp x) := statement_of 0xE#4 0xE000#16 rfl rfl (by decide)
theorem out (x : Addr) : Statement (.out x) := statement_of 0xF#4 0xF000#16 rfl rfl (by decide)

end Sys2Proof.Laws.TableRow
end

