-- ==== Sys2Proof/Laws/Step.lean ====
section
/-! SUPPORT. Inversion of the step function, and runs of many cycles. -/

namespace Sys2Proof.Machine

open Sys2Proof.Safety

@[simp] theorem finishCycle_next (pre post : Word) (t : State) :
    finishCycle pre post (.next t) = .next (t.breakpointCheck pre post) := rfl

theorem finishCycle_eq_next {pre post : Word} {r : Result} {t : State} :
    finishCycle pre post r = .next t ↔ ∃ u, r = .next u ∧ t = u.breakpointCheck pre post := by
  cases r <;> simp [finishCycle, eq_comm]

theorem finishCycle_eq_fault {pre post : Word} {r : Result} {f : Fault} :
    finishCycle pre post r = .fault f ↔ r = .fault f := by
  cases r <;> simp [finishCycle]

theorem step_of_running {s : State} (h : s.run = .running) :
    step s = finishCycle s.pc (nextPc s.pc) (exec (nextInstr s) s.fetchDecode) := by
  unfold step
  rw [h]
  rfl

theorem step_of_halted {s : State} (h : s.run = .halted) : step s = .fault .halted := by
  unfold step
  rw [h]

/-- All that a completed cycle can be: RUN was Running, the handler of the fetched instruction answered a state, and the
Breakpoint check ran on it. -/
theorem step_next {s t : State} (h : step s = .next t) :
    s.run = .running ∧ ∃ u, exec (nextInstr s) s.fetchDecode = .next u ∧
      t = u.breakpointCheck s.pc (nextPc s.pc) := by
  cases hr : s.run with
  | halted => rw [step_of_halted hr] at h; cases h
  | running =>
    rw [step_of_running hr] at h
    exact ⟨rfl, finishCycle_eq_next.1 h⟩

/-- The handlers answer a next state, but for IN with no word available. -/
theorem exec_next_or_blocked (i : Instr) (s : State) :
    (∃ t, exec i s = .next t) ∨ (exec i s = .fault .blocked ∧ s.input.word? s.inpos = none ∧ ∃ x, i = .inp x) := by
  cases i with
  | inp x =>
    simp only [exec, execInp, State.inNext_eq]
    cases s.input.word? s.inpos with
    | none => exact .inr ⟨rfl, rfl, x, rfl⟩
    | some v => exact .inl ⟨_, rfl⟩
  | div x =>
    simp only [exec, execDiv]
    split
    · exact .inl ⟨_, rfl⟩
    · exact .inl ⟨_, rfl⟩
  | _ => exact .inl ⟨_, rfl⟩

@[simp] theorem runCycles_zero (s : State) : runCycles 0 s = .next s := rfl

theorem runCycles_succ_of_next {s t : State} (n : Nat) (h : step s = .next t) :
    runCycles (n + 1) s = runCycles n t := by
  simp only [runCycles, h]

theorem runCycles_succ_of_fault {s : State} {f : Fault} (n : Nat) (h : step s = .fault f) :
    runCycles (n + 1) s = .fault f := by
  simp only [runCycles, h]

/-- A run of `n + 1` cycles is one cycle and then `n`. -/
theorem runCycles_succ_next {s u : State} {n : Nat} (h : runCycles (n + 1) s = .next u) :
    ∃ t, step s = .next t ∧ runCycles n t = .next u := by
  simp only [runCycles] at h
  split at h
  · next t ht => exact ⟨t, ht, h⟩
  · cases h
  · cases h

theorem hostRun_succ (M : Host.Core) (n : Nat) (s : M.State) :
    M.run (n + 1) s = match M.step s with
      | .next t => M.run n t
      | .fault r => .fault r
      | .refused r => .refused r := rfl

/-- The runs of this model's claims are the host's runs. -/
theorem core_run_eq_runCycles (n : Nat) (s : State) : Sys2Proof.core.run n s = runCycles n s := by
  induction n generalizing s with
  | zero => rfl
  | succ n ih =>
    refine (hostRun_succ Sys2Proof.core n s).trans ?_
    rw [runCycles]
    change _ = (match Sys2Proof.core.step s with
      | .next t => runCycles n t
      | .fault r => .fault r
      | .refused r => .refused r)
    cases Sys2Proof.core.step s with
    | next t => exact ih t
    | fault r => rfl
    | refused r => rfl

/-- An invariant that every cycle keeps holds after any run from a state that has it. -/
theorem runCycles_keeps {P : State → Prop} (hstep : ∀ s t, step s = .next t → P s → P t) :
    ∀ (n : Nat) (s t : State), runCycles n s = .next t → P s → P t := by
  intro n
  induction n with
  | zero =>
    intro s t h hs
    cases h
    exact hs
  | succ n ih =>
    intro s u h hs
    obtain ⟨t, ht, hu⟩ := runCycles_succ_next h
    exact ih t u hu (hstep s t ht hs)

end Sys2Proof.Machine
end

