-- ==== Sys2Proof/Tests/Slice0.lean ====
section
/-! SUPPORT. Smoke tests of the checks, decoding of written-out words, single-step vectors of
spec/95_test_vectors.md (V<n>), and a witness for the hypotheses of every obligation that has some. -/

namespace Sys2Proof.Tests

open Sys2Proof.Machine Sys2Proof.Safety

/-! ### Checks refuse what is ill-formed -/

theorem test_image_address_1000_refused : Image.wellFormed [(0x0FFF, 1#16), (0x1000, 1#16)] = false := by decide
theorem test_image_address_0FFF_accepted : Image.wellFormed [(0x0FFF, 1#16)] = true := by decide
theorem test_memory_unsorted_not_wf : ¬ Memory.wf [(5, 1#16), (3, 1#16)] := by decide
theorem test_memory_repeated_not_wf : ¬ Memory.wf [(5, 1#16), (5, 2#16)] := by decide
theorem test_memory_zero_entry_not_wf : ¬ Memory.wf [(5, 0#16)] := by decide
theorem test_memory_out_of_range_not_wf : ¬ Memory.wf [(4096, 1#16)] := by decide
theorem test_memory_last_word_wf : Memory.wf [(4095, 1#16)] := by decide

/-! ### Decoding and encoding: words written out from spec/30_encoding.md R53 and 95_test_vectors.md 2.6 -/

theorem test_decode_halt : decode 0x002A#16 = .halt 0x02A#12 ∧ encode (.halt 0x02A#12) = 0x002A#16 := by decide
theorem test_decode_load : decode 0x1005#16 = .load 0x005#12 ∧ encode (.load 0x005#12) = 0x1005#16 := by decide
theorem test_decode_loadMq : decode 0x2ABC#16 = .loadMq 0xABC#12 ∧ encode (.loadMq 0xABC#12) = 0x2ABC#16 := by decide
theorem test_decode_loadMqM : decode 0x3031#16 = .loadMqM 0x031#12 ∧ encode (.loadMqM 0x031#12) = 0x3031#16 := by decide
theorem test_decode_stor : decode 0x4021#16 = .stor 0x021#12 ∧ encode (.stor 0x021#12) = 0x4021#16 := by decide
theorem test_decode_sta : decode 0x5003#16 = .sta 0x003#12 ∧ encode (.sta 0x003#12) = 0x5003#16 := by decide
theorem test_decode_add : decode 0x6ABC#16 = .add 0xABC#12 ∧ encode (.add 0xABC#12) = 0x6ABC#16 := by decide
theorem test_decode_sub : decode 0x7022#16 = .sub 0x022#12 ∧ encode (.sub 0x022#12) = 0x7022#16 := by decide
theorem test_decode_mul : decode 0x8030#16 = .mul 0x030#12 ∧ encode (.mul 0x030#12) = 0x8030#16 := by decide
theorem test_decode_div : decode 0x9011#16 = .div 0x011#12 ∧ encode (.div 0x011#12) = 0x9011#16 := by decide
theorem test_decode_jmp : decode 0xA00C#16 = .jmp 0x00C#12 ∧ encode (.jmp 0x00C#12) = 0xA00C#16 := by decide
theorem test_decode_jz : decode 0xBFFF#16 = .jz 0xFFF#12 ∧ encode (.jz 0xFFF#12) = 0xBFFF#16 := by decide
theorem test_decode_jnz : decode 0xC000#16 = .jnz 0x000#12 ∧ encode (.jnz 0x000#12) = 0xC000#16 := by decide
theorem test_decode_jpos : decode 0xD010#16 = .jpos 0x010#12 ∧ encode (.jpos 0x010#12) = 0xD010#16 := by decide
theorem test_decode_inp : decode 0xE123#16 = .inp 0x123#12 ∧ encode (.inp 0x123#12) = 0xE123#16 := by decide
theorem test_decode_out : decode 0xFFFF#16 = .out 0xFFF#12 ∧ encode (.out 0xFFF#12) = 0xFFFF#16 := by decide

theorem test_table_word : decodeTableWord 16 0x9011 = some (.div 0x011#12) := by decide
theorem test_table_word_too_long : decodeTableWord 24 0x9011 = none := by decide

/-! ### One cycle on a small state -/

/-- A running machine with a few words of memory, no breakpoints and no input. -/
def small (pc ac mq : Word) (cells : Memory) : State :=
  { State.reset with pc := pc, ac := ac, mq := mq, mem := cells, input := .finite [] }

/-- The next state of an outcome. -/
def nextOf : Result → Option State
  | .next t => some t
  | .fault _ => none
  | .refused _ => none

/-- PC, MAR, MBR, AC, MQ after one cycle. -/
def regsAfter (s : State) : Option (List Word) :=
  (nextOf (step s)).map fun t => [t.pc, t.mar, t.mbr, t.ac, t.mq]

/-- IR, IBR, RUN, CAUSE after one cycle. -/
def controlAfter (s : State) : Option (Opcode × Addr × RunState × Option HaltCause) :=
  (nextOf (step s)).map fun t => (t.ir, t.ibr, t.run, t.cause)

/-- The word at an address after one cycle. -/
def wordAfter (s : State) (a : Nat) : Option Word := (nextOf (step s)).map fun t => t.mem.read a

/-- TRACE after one cycle. -/
def traceAfter (s : State) : Option (List Event) := (nextOf (step s)).map fun t => t.trace

/-- V1 -/
theorem test_load_V1 : regsAfter (small 0x0000#16 0x0000#16 0x0000#16 [(0x000, 0x1005#16), (0x005, 0x002A#16)]) = some [0x0001#16, 0x0005#16, 0x002A#16, 0x002A#16, 0x0000#16] := by decide
/-- V2 -/
theorem test_load_own_word_V2 : regsAfter (small 0x0010#16 0xFFFF#16 0x0000#16 [(0x010, 0x1010#16)]) = some [0x0011#16, 0x0010#16, 0x1010#16, 0x1010#16, 0x0000#16] := by decide
/-- V5 -/
theorem test_load_mq_V5 : regsAfter (small 0x0010#16 0x1111#16 0xFFF4#16 [(0x010, 0x2ABC#16), (0xABC, 0x5555#16)]) = some [0x0011#16, 0x0010#16, 0x2ABC#16, 0xFFF4#16, 0xFFF4#16] := by decide
/-- V6 -/
theorem test_load_mq_m_V6 : regsAfter (small 0x0000#16 0x0007#16 0x0000#16 [(0x000, 0x3031#16), (0x031, 0x8000#16)]) = some [0x0001#16, 0x0031#16, 0x8000#16, 0x0007#16, 0x8000#16] := by decide
/-- V8 -/
theorem test_stor_onto_itself_V8 : regsAfter (small 0x0010#16 0xA000#16 0x0000#16 [(0x010, 0x4010#16)]) = some [0x0011#16, 0x0010#16, 0xA000#16, 0xA000#16, 0x0000#16] := by decide
/-- V11 -/
theorem test_sta_V11 : regsAfter (small 0x0001#16 0xFFFF#16 0x0000#16 [(0x001, 0x5003#16), (0x003, 0x6005#16)]) = some [0x0002#16, 0x0003#16, 0x6FFF#16, 0xFFFF#16, 0x0000#16] := by decide
/-- V16 -/
theorem test_add_overflow_V16 : regsAfter (small 0x0006#16 0x7FFF#16 0x0000#16 [(0x006, 0x6022#16), (0x022, 0x0001#16)]) = some [0x0007#16, 0x0022#16, 0x0001#16, 0x8000#16, 0x0000#16] := by decide
/-- V15 -/
theorem test_add_V15 : regsAfter (small 0x0006#16 0x0005#16 0x0000#16 [(0x006, 0x6022#16), (0x022, 0xFFFB#16)]) = some [0x0007#16, 0x0022#16, 0xFFFB#16, 0x0000#16, 0x0000#16] := by decide
/-- V20 -/
theorem test_sub_overflow_V20 : regsAfter (small 0x0009#16 0x8000#16 0x0000#16 [(0x009, 0x7022#16), (0x022, 0x0001#16)]) = some [0x000A#16, 0x0022#16, 0x0001#16, 0x7FFF#16, 0x0000#16] := by decide
/-- V19 -/
theorem test_sub_V19 : regsAfter (small 0x0009#16 0x0003#16 0x0000#16 [(0x009, 0x7022#16), (0x022, 0x0001#16)]) = some [0x000A#16, 0x0022#16, 0x0001#16, 0x0002#16, 0x0000#16] := by decide
/-- V25 -/
theorem test_mul_V25 : regsAfter (small 0x0001#16 0x0000#16 0xFFFD#16 [(0x001, 0x8030#16), (0x030, 0x0004#16)]) = some [0x0002#16, 0x0030#16, 0x0004#16, 0xFFFF#16, 0xFFF4#16] := by decide
/-- V31 -/
theorem test_mul_V31 : regsAfter (small 0x0001#16 0x0000#16 0x8000#16 [(0x001, 0x8030#16), (0x030, 0x7FFF#16)]) = some [0x0002#16, 0x0030#16, 0x7FFF#16, 0xC000#16, 0x8000#16] := by decide
/-- V36 -/
theorem test_div_V36 : regsAfter (small 0x0005#16 0x0007#16 0x0000#16 [(0x005, 0x9011#16), (0x011, 0xFFFE#16)]) = some [0x0006#16, 0x0011#16, 0xFFFE#16, 0x0001#16, 0xFFFD#16] := by decide
/-- V42 -/
theorem test_div_overflow_V42 : regsAfter (small 0x0005#16 0x8000#16 0x0000#16 [(0x005, 0x9011#16), (0x011, 0xFFFF#16)]) = some [0x0006#16, 0x0011#16, 0xFFFF#16, 0x0000#16, 0x8000#16] := by decide
/-- V52 -/
theorem test_jmp_V52 : regsAfter (small 0x0000#16 0x0000#16 0x0000#16 [(0x000, 0xAFFF#16)]) = some [0x0FFF#16, 0x0000#16, 0xAFFF#16, 0x0000#16, 0x0000#16] := by decide
/-- V53 -/
theorem test_jz_taken_V53 : regsAfter (small 0x0000#16 0x0000#16 0x0000#16 [(0x000, 0xBFFF#16)]) = some [0x0FFF#16, 0x0000#16, 0xBFFF#16, 0x0000#16, 0x0000#16] := by decide
/-- V55 -/
theorem test_jz_not_taken_V55 : regsAfter (small 0x0000#16 0x8000#16 0x0000#16 [(0x000, 0xBFFF#16)]) = some [0x0001#16, 0x0000#16, 0xBFFF#16, 0x8000#16, 0x0000#16] := by decide
/-- V57 -/
theorem test_jnz_taken_V57 : regsAfter (small 0x000B#16 0xFFFF#16 0x0000#16 [(0x00B, 0xC000#16)]) = some [0x0000#16, 0x000B#16, 0xC000#16, 0xFFFF#16, 0x0000#16] := by decide
/-- V58 -/
theorem test_jnz_not_taken_V58 : regsAfter (small 0x000B#16 0x0000#16 0x0000#16 [(0x00B, 0xC000#16)]) = some [0x000C#16, 0x000B#16, 0xC000#16, 0x0000#16, 0x0000#16] := by decide
/-- V59 -/
theorem test_jpos_zero_V59 : regsAfter (small 0x0005#16 0x0000#16 0x0000#16 [(0x005, 0xD010#16)]) = some [0x0010#16, 0x0005#16, 0xD010#16, 0x0000#16, 0x0000#16] := by decide
/-- V63 -/
theorem test_jpos_negative_at_last_address_V63 : regsAfter (small 0x0FFF#16 0xFFFF#16 0x0000#16 [(0xFFF, 0xD010#16)]) = some [0x0000#16, 0x0FFF#16, 0xD010#16, 0xFFFF#16, 0x0000#16] := by decide
/-- V7. -/
theorem test_stor_V7 : wordAfter (small 0x0004#16 0xFFFB#16 0x0001#16 [(0x004, 0x4021#16), (0x021, 0x1234#16)]) 0x021 =
    some 0xFFFB#16 := by decide
/-- V14. -/
theorem test_sta_onto_itself_V14 : wordAfter (small 0x0010#16 0x0123#16 0x0000#16 [(0x010, 0x5010#16)]) 0x010 =
    some 0x5123#16 := by decide
/-- V48. -/
theorem test_halt_V48 : controlAfter (small 0x0010#16 0x0001#16 0x0002#16 [(0x010, 0x0ABC#16)]) =
    some (0x0#4, 0xABC#12, .halted, some .normalHalt) := by decide
/-- V77: the reset machine with nothing loaded halts in its first cycle. -/
theorem test_reset_halts_V77 : traceAfter State.reset = some [.diag .normalHalt] := by decide
/-- V46: the snapshot follows the Diag. -/
theorem test_div_by_zero_on_breakpoint_V46 :
    traceAfter { small 0x0005#16 0x0005#16 0x0009#16 [(0x005, 0x9011#16)] with bp := [5] } =
      some [.diag .arithmeticFault, .snap ⟨0x0005#16, 0x0006#16, 0x0011#16, 0x0011#16, 0x0009#16, 0x0000#16, 0x0005#16,
        0x0009#16⟩] := by decide
/-- V65: -7 arrives at the last address, PC wraps. -/
theorem test_in_V65 :
    regsAfter { small 0x0FFF#16 0x0000#16 0x0000#16 [(0xFFF, 0xE000#16)] with input := .finite [0xFFF9#16, 0x0001#16] } =
      some [0x0000#16, 0x0FFF#16, 0xE000#16, 0xFFF9#16, 0x0000#16] := by decide
/-- V67: no input left, no cycle. -/
theorem test_in_blocked_V67 : nextOf (step (small 0x0000#16 0x1234#16 0x0000#16 [(0x000, 0xE000#16)])) = none := by
  decide
/-- V69. -/
theorem test_out_V69 : traceAfter (small 0x0001#16 0xFFFF#16 0x0003#16 [(0x001, 0xFABC#16)]) = some [.out 0xFFFF#16] := by
  decide
/-- V72: `pc_post` is 0004, not the target. -/
theorem test_snapshot_on_taken_jump_V72 :
    traceAfter { small 0x0003#16 0x0001#16 0x0002#16 [(0x003, 0xA00C#16)] with bp := [3] } =
      some [.snap ⟨0x0003#16, 0x0004#16, 0x0003#16, 0x000C#16, 0x000A#16, 0xA00C#16, 0x0001#16, 0x0002#16⟩] := by decide
/-- V71: a breakpoint on an operand address does not fire. -/
theorem test_no_snapshot_on_operand_V71 :
    traceAfter { small 0x0000#16 0x0000#16 0x0000#16 [(0x000, 0x1005#16), (0x005, 0x002A#16)] with bp := [5] } =
      some [] := by decide
/-- V75: a breakpoint address of 4096 never fires. -/
theorem test_breakpoint_4096_inert_V75 :
    traceAfter { small 0x0000#16 0x0000#16 0x0009#16 [(0x000, 0x2000#16)] with bp := [4096] } = some [] := by decide

/-- The host's placed word is the first instruction to run: LOAD M(5) from reset. -/
theorem test_with_fetch_word :
    controlAfter (State.reset.withFetchWord 16 0x1005) = some (0x1#4, 0x005#12, .running, none) := by decide

/-! ### Witnesses: the hypotheses of every obligation that has some can be met -/

theorem next_of_isSome {r : Result} (h : (nextOf r).isSome = true) : ∃ t, r = .next t := by
  cases r with
  | next t => exact ⟨t, rfl⟩
  | fault f => cases h
  | refused f => cases h

/-- LOAD M(005) at 000, with a breakpoint there. -/
def loadState : State :=
  { small 0x0000#16 0x0000#16 0x0000#16 [(0x000, 0x1005#16), (0x005, 0x002A#16)] with bp := [0] }
/-- JMP M(FFF) at FFF, no breakpoint. -/
def jumpState : State := small 0x0FFF#16 0x0000#16 0x0000#16 [(0xFFF, 0xAFFF#16)]
/-- STOR M(FFF) at 010. -/
def storState : State := small 0x0010#16 0x1234#16 0x0000#16 [(0x010, 0x4FFF#16)]
/-- STA M(FFF) at 010. -/
def staState : State := small 0x0010#16 0x1234#16 0x0000#16 [(0x010, 0x5FFF#16), (0xFFF, 0x6005#16)]
/-- DIV M(011) at 005 with divisor 0. -/
def divZeroState : State := small 0x0005#16 0x0005#16 0x0009#16 [(0x005, 0x9011#16)]
/-- IN at 000 with one input word, already consumed. -/
def blockedState : State :=
  { small 0x0000#16 0x0000#16 0x0000#16 [(0x000, 0xE000#16)] with input := .finite [7#16], inpos := 1, trace := [.inp 7#16] }
/-- IN at 000 with one input word, not consumed. -/
def inState : State := { small 0x0000#16 0x0000#16 0x0000#16 [(0x000, 0xE000#16)] with input := .finite [7#16] }

theorem loadState_steps : ∃ t, step loadState = .next t := next_of_isSome (by decide)
theorem jumpState_steps : ∃ t, step jumpState = .next t := next_of_isSome (by decide)
theorem storState_steps : ∃ t, step storState = .next t := next_of_isSome (by decide)
theorem staState_steps : ∃ t, step staState = .next t := next_of_isSome (by decide)
theorem divZeroState_steps : ∃ t, step divZeroState = .next t := next_of_isSome (by decide)
theorem inState_steps : ∃ t, step inState = .next t := next_of_isSome (by decide)

theorem witness_EveryWordIsOneInstruction : ∃ (w : Word) (s t : State),
    exec (decode w) s = .next t ∧ t.cause = some .decodeFault :=
  ⟨0xF000#16, { loadState with cause := some .decodeFault }, _, rfl, rfl⟩

theorem witness_DecodeStepSplitsFetchedWord : ∃ (s t : State) (w : Word),
    step s = .next t ∧ s.mem.read (maskAddr s.pc) = w :=
  let ⟨t, h⟩ := loadState_steps
  ⟨loadState, t, _, h, rfl⟩

theorem witness_AddressesAreMaskedToTwelveBits :
    (∃ addr : Word, addr.toNat < 4096 ∧ addr = 0x0FFF#16) ∧ maskAddr 0x1000#16 = 0 := by
  refine ⟨⟨0x0FFF#16, ?_⟩, ?_⟩ <;> decide

theorem witness_MemWriteReplacesOneWord :
    (∃ (addr : Word) (b : Nat), b ≠ maskAddr addr) ∧
    ∃ (i : Instr) (s t : State), exec i s = .next t ∧ ∀ x, i ≠ .stor x ∧ i ≠ .sta x :=
  ⟨⟨0x0FFF#16, 0, by decide⟩, .out 0#12, loadState, _, rfl, fun _ => ⟨nofun, nofun⟩⟩

theorem witness_MemPatchKeepsTopFourBits :
    (∃ (addr : Word) (b : Nat), b ≠ maskAddr addr) ∧
    ∃ (i : Instr) (s t : State), exec i s = .next t ∧ ∀ x, i ≠ .stor x ∧ i ≠ .sta x :=
  ⟨⟨0x1000#16, 4095, by decide⟩, .loadMq 0#12, loadState, _, rfl, fun _ => ⟨nofun, nofun⟩⟩

theorem witness_StorReplacesOneWord : ∃ (x : Addr) (a b : Nat), a = maskAddr (zext16 x) ∧ b ≠ a ∧ a = 4095 :=
  ⟨0xFFF#12, 4095, 0, by decide⟩

theorem witness_StaPatchesOperandField : ∃ (x : Addr) (s : State) (a : Nat) (new : Word), a = maskAddr (zext16 x) ∧
    new = (s.mem.read x.toNat &&& 0xF000#16) ||| (s.ac &&& 0x0FFF#16) :=
  ⟨0xFFF#12, staState, 4095, 0x6234#16, by decide⟩

theorem witness_AddSubWrapSilently : ∃ (x : Addr) (s : State) (v : Word), s.mem.read x.toNat = v :=
  ⟨0x005#12, loadState, 0x002A#16, by decide⟩

theorem witness_MulGivesExactSignedProduct : ∃ (x : Addr) (s : State) (v : Word), s.mem.read x.toNat = v :=
  ⟨0x005#12, loadState, 0x002A#16, by decide⟩

theorem witness_MulAgreesWithUnsignedWhereSpecSays : ∃ (x : Addr) (s : State) (v : Word),
    s.mem.read x.toNat = v ∧ s.mq.toNat < 32768 ∧ v.toNat < 32768 :=
  ⟨0x030#12, small 0x0001#16 0x0000#16 0x7FFF#16 [(0x030, 0x7FFF#16)], 0x7FFF#16, by decide⟩

theorem witness_DivisionTruncatesTowardZero : ∃ b : Int, b ≠ 0 := ⟨-1, by decide⟩

theorem witness_DivGivesQuotientAndRemainder :
    (∃ (x : Addr) (s : State) (d : Word), s.mem.read x.toNat = d ∧ d ≠ 0#16 ∧ ¬ (s.ac = 0x8000#16 ∧ d = 0xFFFF#16)) ∧
    ∃ (x : Addr) (s : State) (d : Word), s.mem.read x.toNat = d ∧ d ≠ 0#16 ∧ s.ac = 0x8000#16 ∧ d = 0xFFFF#16 :=
  ⟨⟨0x011#12, small 0x0005#16 0x8000#16 0x0000#16 [(0x011, 0x0001#16)], 0x0001#16, by decide⟩,
    0x011#12, small 0x0005#16 0x8000#16 0x0000#16 [(0x011, 0xFFFF#16)], 0xFFFF#16, by decide⟩

theorem witness_DivideByZeroHaltsWithArithmeticFault :
    (∃ (s : State) (x : Addr), s.run = .running ∧ nextInstr s = .div x ∧ s.mem.read x.toNat = 0#16 ∧ s.pc.toNat ∉ s.bp) ∧
    ∃ (s : State) (x : Addr), s.run = .running ∧ nextInstr s = .div x ∧ s.mem.read x.toNat = 0#16 ∧ s.pc.toNat ∈ s.bp :=
  ⟨⟨divZeroState, 0x011#12, by decide⟩, { divZeroState with bp := [5] }, 0x011#12, by decide⟩

theorem witness_HaltEndsTheRunNormally : ∃ (x : Addr) (s : State), s.run = .running ∧ nextInstr s = .halt x :=
  ⟨0xFFF#12, small 0x0002#16 0x0000#16 0x0000#16 [(0x002, 0x0FFF#16)], by decide⟩

theorem witness_JposJumpsOnNonnegative : ∃ s : State, s.ac = 0x0000#16 := ⟨loadState, rfl⟩

theorem witness_InTakesNextInputWord :
    (∃ (s : State) (ws : List Word) (v : Word), s.input = .finite ws ∧ ws[s.inpos]? = some v) ∧
    (∃ (x : Addr) (s t : State) (ws : List Word), s.input = .finite ws ∧ exec (.inp x) s = .next t) ∧
    ∃ (s : State) (k : Nat), s.input = .endless k :=
  ⟨⟨inState, [7#16], 7#16, by decide⟩, ⟨0#12, inState, _, [7#16], rfl, rfl⟩, State.reset, 0, rfl⟩

theorem witness_InBlocksExactlyWhenExhausted :
    (∃ (s : State) (ws : List Word), s.input = .finite ws ∧ ws.length ≤ s.inpos) ∧ ∃ s : State, Blocked s :=
  ⟨⟨blockedState, [7#16], by decide⟩, blockedState, by unfold Blocked; decide⟩

theorem witness_StepRunsTheDecodedInstruction :
    (∃ t, loadState.run = .running ∧ exec (nextInstr loadState) loadState.fetchDecode = .next t ∧
      loadState.pc.toNat ∈ t.bp) ∧
    (∃ t, jumpState.run = .running ∧ exec (nextInstr jumpState) jumpState.fetchDecode = .next t ∧
      jumpState.pc.toNat ∉ t.bp) ∧
    ∃ r, blockedState.run = .running ∧ exec (nextInstr blockedState) blockedState.fetchDecode = .fault r :=
  ⟨⟨_, rfl, rfl, by decide⟩, ⟨_, rfl, rfl, by decide⟩, _, rfl, rfl⟩

theorem witness_HaltedIsTerminal :
    (∃ s : State, s.run = .halted) ∧
    ∃ (s t : State) (n m : Nat), runCycles n s = .next t ∧ t.run = .halted ∧ n < m :=
  ⟨⟨{ loadState with run := .halted }, rfl⟩, State.reset, _, 1, 2, rfl, rfl, by decide⟩

theorem witness_PcAfterEachInstruction :
    (∃ t, step jumpState = .next t ∧ takesJump (nextInstr jumpState) jumpState.ac) ∧
    ∃ t, step loadState = .next t ∧ ¬ takesJump (nextInstr loadState) loadState.ac :=
  ⟨jumpState_steps.imp fun _ h => ⟨h, by decide⟩, loadState_steps.imp fun _ h => ⟨h, by decide⟩⟩

theorem witness_MarAndMbrAfterEachCycle :
    (∃ t, step loadState = .next t ∧ accessesMemory (nextInstr loadState) = true) ∧
    ∃ t, step jumpState = .next t ∧ accessesMemory (nextInstr jumpState) = false :=
  ⟨loadState_steps.imp fun _ h => ⟨h, by decide⟩, jumpState_steps.imp fun _ h => ⟨h, by decide⟩⟩

theorem witness_EventsOfOneCycleInOrder :
    (∃ t, step jumpState = .next t ∧ jumpState.pc.toNat ∉ jumpState.bp) ∧
    ∃ t, step loadState = .next t ∧ loadState.pc.toNat ∈ loadState.bp :=
  ⟨jumpState_steps.imp fun _ h => ⟨h, by decide⟩, loadState_steps.imp fun _ h => ⟨h, by decide⟩⟩

theorem witness_SnapshotShowsEndOfCycle :
    (∃ t, step jumpState = .next t ∧ jumpState.pc.toNat ∉ jumpState.bp) ∧
    ∃ t, step loadState = .next t ∧ loadState.pc.toNat ∈ loadState.bp :=
  witness_EventsOfOneCycleInOrder

theorem witness_OnlyStoresWriteMemory :
    (∃ (i : Instr) (s t : State) (a : Nat), exec i s = .next t ∧ t.mem.read a ≠ s.mem.read a) ∧
    ∃ (i : Instr) (s t : State), exec i s = .next t ∧ ∀ x, i ≠ .stor x ∧ i ≠ .sta x :=
  ⟨⟨.stor 0xFFF#12, storState, _, 4095, rfl, by decide⟩, .out 0#12, loadState, _, rfl, fun _ => ⟨nofun, nofun⟩⟩

theorem witness_HandlersWriteOnlyTheirRegisters :
    (∃ t, exec (.load 5#12) loadState = .next t ∧ t.ac ≠ loadState.ac ∧ t.mar ≠ loadState.mar) ∧
    (∃ t, exec (.loadMqM 5#12) loadState = .next t ∧ t.mq ≠ loadState.mq) ∧
    (∃ t, exec (.jmp 5#12) loadState = .next t ∧ t.pc ≠ loadState.pc) ∧
    ∃ t, exec (.inp 5#12) inState = .next t ∧ t.inpos ≠ inState.inpos :=
  ⟨⟨_, rfl, by decide⟩, ⟨_, rfl, by decide⟩, ⟨_, rfl, by decide⟩, _, rfl, by decide⟩

theorem witness_OnlyHaltAndDivideByZeroStop :
    (∃ t, exec (.halt 0#12) loadState = .next t ∧ (t.run ≠ loadState.run ∨ t.cause ≠ loadState.cause)) ∧
    ∃ t, exec (.div 0x011#12) divZeroState = .next t ∧ (t.run ≠ divZeroState.run ∨ t.cause ≠ divZeroState.cause) :=
  ⟨⟨_, rfl, by decide⟩, _, rfl, by decide⟩

theorem witness_OneSnapshotPerVisit : ∃ (n : Nat) (s t : State), runCycles n s = .next t ∧ s.trace = [] ∧ 0 < n :=
  let ⟨t, h⟩ := loadState_steps
  ⟨1, loadState, t, (runCycles_succ_of_next 0 h).trans rfl, rfl, by decide⟩

theorem witness_StoreIsSeenByTheNextFetch :
    (∃ (t : State) (x : Addr), step storState = .next t ∧ nextInstr storState = .stor x) ∧
    ∃ (t : State) (x : Addr), step staState = .next t ∧ nextInstr staState = .sta x :=
  ⟨storState_steps.imp fun _ h => ⟨0xFFF#12, h, by decide⟩, staState_steps.imp fun _ h => ⟨0xFFF#12, h, by decide⟩⟩

theorem witness_UnloadedMemoryHaltsNormally :
    ∃ s : State, s.run = .running ∧ s.mem.read (maskAddr s.pc) = 0x0000#16 := ⟨State.reset, by decide⟩

theorem witness_LaunchLoadsImage :
    (∃ im : Image, ∃ p ∈ im, 0x0FFF < p.1 ∧ p.1 = 0x1000) ∧
    (∃ im : Image, (∀ p ∈ im, p.1 ≤ 0x0FFF) ∧
      (∃ (before after : Image) (a : Nat) (v : Word), im = before ++ (a, v) :: after ∧ (∀ p ∈ after, p.1 ≠ a) ∧
        a = 0x0FFF) ∧ ∃ a : Nat, ∀ p ∈ im, p.1 ≠ a) :=
  ⟨⟨[(0x1000, 1#16)], (0x1000, 1#16), by decide⟩,
    [(0x0FFF, 1#16), (0x0FFF, 2#16)], by decide, ⟨[(0x0FFF, 1#16)], [], 0x0FFF, 2#16, rfl, nofun, rfl⟩, 5, by decide⟩

theorem witness_StepKeepsAddressesInRange : ∃ s t : State, AddressesInRange s ∧ step s = .next t :=
  let ⟨t, h⟩ := storState_steps
  ⟨storState, t, by unfold AddressesInRange; decide, h⟩

theorem witness_StepKeepsCauseAgreement : ∃ s t : State, CauseAgrees s ∧ step s = .next t :=
  let ⟨t, h⟩ := divZeroState_steps
  ⟨divZeroState, t, by unfold CauseAgrees; decide, h⟩

theorem witness_StepKeepsInputAccounted : ∃ s t : State, InputAccounted s ∧ step s = .next t :=
  let ⟨t, h⟩ := inState_steps
  ⟨inState, t, by unfold InputAccounted; decide, h⟩

theorem witness_StepKeepsSnapshotsFaithful : ∃ s t : State, SnapshotsFaithful s ∧ step s = .next t :=
  let ⟨t, h⟩ := loadState_steps
  ⟨loadState, t, by unfold SnapshotsFaithful; decide, h⟩

theorem witness_ResetAndLaunchMeetInvariants :
    ∃ (im : Image) (bp : List Nat) (input : Input) (s : State), launch im bp input = some s :=
  ⟨[(0x0FFF, 1#16)], [0], .finite [7#16], _, rfl⟩

/-! ### A machine that runs 4096 cycles without a jump: every word is LOAD_MQ (S7) -/

/-- `n` words 0x2000 from address `k` on. -/
def loadMqWords : Nat → Nat → Memory
  | _, 0 => []
  | k, n + 1 => (k, 0x2000#16) :: loadMqWords (k + 1) n

theorem read_loadMqWords (n k a : Nat) (h : k ≤ a) (h' : a < k + n) : (loadMqWords k n).read a = 0x2000#16 := by
  induction n generalizing k with
  | zero => omega
  | succ n ih =>
    simp only [loadMqWords, Memory.read_cons]
    split
    · rfl
    · exact ih (k + 1) (by omega) (by omega)

theorem loadMq_runs (n : Nat) : ∀ s : State, s.run = .running → s.mem = loadMqWords 0 4096 →
    noJumpFor n s ∧ ∃ t, runCycles n s = .next t := by
  induction n with
  | zero => exact fun s _ _ => ⟨trivial, s, rfl⟩
  | succ n ih =>
    intro s hr hm
    have hw : nextInstr s = .loadMq 0x000#12 := by
      rw [nextInstr, hm, read_loadMqWords _ _ _ (Nat.zero_le _) (by simpa using maskAddr_lt s.pc)]
      decide
    have hs := step_of_running hr
    rw [hw] at hs
    obtain ⟨h1, t, h2⟩ := ih ((s.fetchDecode.setAc s.fetchDecode.mq).breakpointCheck s.pc (nextPc s.pc))
      (by simp [hr]) (by simp [hm])
    have hs' : step s = .next ((s.fetchDecode.setAc s.fetchDecode.mq).breakpointCheck s.pc (nextPc s.pc)) := hs
    exact ⟨by simp only [noJumpFor, hs', hw]; exact ⟨by simp [takesJump], h1⟩, t,
      by rw [runCycles_succ_of_next n hs', h2]⟩

theorem witness_SequentialCyclesAdvancePcModulo4096 : ∃ s t : State, s.pc.toNat < 4096 ∧ noJumpFor 4096 s ∧
    runCycles 4096 s = .next t ∧ s.pc = 0x0FFF#16 :=
  let s := { State.reset with pc := 0x0FFF#16, mem := loadMqWords 0 4096 }
  let ⟨h, t, ht⟩ := loadMq_runs 4096 s rfl rfl
  ⟨s, t, by decide, h, ht, rfl⟩

end Sys2Proof.Tests
end

section
/-! Reset (spec/10_state.md R26): what the Word Store reads right after reset, and the table of reset values. -/

namespace Sys2Proof.Machine

/-- The reset memory lists no word, so every address reads the content of an unlisted word (R19). -/
@[simp] theorem State.reset_mem_read (a : Nat) : State.reset.mem.read a = 0x0000#16 :=
  Memory.read_nil a

/-- Settles O49: the memory row is `State.reset_mem_read`, at every address; each other row is a field of `State.reset`
as it is defined. -/
theorem resetValues : Obligations.ResetValues := by
  unfold Obligations.ResetValues
  have hmem : ∀ a : Nat, a < 4096 → State.reset.mem.read a = 0x0000#16 := fun a _ => State.reset_mem_read a
  exact ⟨rfl, rfl, rfl, rfl, rfl, rfl, rfl, hmem, rfl, rfl, rfl, rfl⟩

end Sys2Proof.Machine
end

section
/-! The three memory primitives (spec/20_memory.md R31, R32, R33), the transfers that call them, and all that a handler
does to memory. -/

namespace Sys2Proof.Machine

/-! ### What each primitive answers -/

section
variable (s : State) (addr v : Word)

theorem State.memRead_eq :
    s.memRead addr = (s.mem.read (maskAddr addr), { s with mbr := s.mem.read (maskAddr addr) }) := rfl

theorem State.memWrite_eq :
    s.memWrite addr v = { s with mem := s.mem.write (maskAddr addr) v, mbr := v } := rfl

theorem State.memPatch_eq :
    s.memPatch addr v =
      { s with
        mem := s.mem.write (maskAddr addr) (patchWord (s.mem.read (maskAddr addr)) v)
        mbr := patchWord (s.mem.read (maskAddr addr)) v } := rfl

@[simp] theorem State.memRead_fst : (s.memRead addr).1 = s.mem.read (maskAddr addr) := rfl

@[simp] theorem State.memRead_mem : (s.memRead addr).2.mem = s.mem := rfl

end

theorem patchWord_eq_append (old v : Word) : patchWord old v = opField old ++ addrField v := rfl

/-- The mask form of the combined word: each operand is split into its two fields, and so is each mask. -/
theorem patchWord_eq_or (old v : Word) : patchWord old v = (old &&& 0xF000#16) ||| (v &&& 0x0FFF#16) := by
  have hHigh : (0xF000#16 : Word) = BitVec.allOnes 4 ++ 0#12 := by decide
  have hLow : (0x0FFF#16 : Word) = 0#4 ++ BitVec.allOnes 12 := by decide
  calc patchWord old v
      = opField old ++ addrField v := patchWord_eq_append old v
    _ = ((opField old ++ addrField old) &&& (BitVec.allOnes 4 ++ 0#12)) |||
          ((opField v ++ addrField v) &&& (0#4 ++ BitVec.allOnes 12)) := by
        rw [BitVec.and_append, BitVec.and_append, BitVec.or_append]
        simp only [BitVec.and_allOnes, BitVec.and_zero, BitVec.zero_or, BitVec.or_zero]
    _ = (old &&& 0xF000#16) ||| (v &&& 0x0FFF#16) := by
        rw [append_fields, append_fields, hHigh, hLow]

/-! ### The transfers between memory and AC or MQ -/

section
variable (x : Addr) (s : State)

theorem exec_load :
    exec (.load x) s =
      .next { s with mar := zext16 x, mbr := s.mem.read x.toNat, ac := s.mem.read x.toNat } := by
  simp only [exec, execLoad, State.readOperand_eq]
  rfl

theorem exec_loadMqM :
    exec (.loadMqM x) s =
      .next { s with mar := zext16 x, mbr := s.mem.read x.toNat, mq := s.mem.read x.toNat } := by
  simp only [exec, execLoadMqM, State.readOperand_eq]
  rfl

theorem exec_stor :
    exec (.stor x) s = .next { s with mar := zext16 x, mbr := s.ac, mem := s.mem.write x.toNat s.ac } :=
  congrArg _ (s.writeOperand_eq x s.ac)

theorem exec_sta :
    exec (.sta x) s =
      .next { s with
        mar := zext16 x
        mbr := patchWord (s.mem.read x.toNat) s.ac
        mem := s.mem.write x.toNat (patchWord (s.mem.read x.toNat) s.ac) } :=
  congrArg _ (s.patchOperand_eq x s.ac)

/-- STOR is the MAR write of R34 and then MemWrite of AC (R32). -/
theorem exec_stor_eq_memWrite :
    exec (.stor x) s = .next ((s.setMar (zext16 x)).memWrite (zext16 x) s.ac) := rfl

/-- STA is the MAR write of R34 and then MemPatch with AC (R33). -/
theorem exec_sta_eq_memPatch :
    exec (.sta x) s = .next ((s.setMar (zext16 x)).memPatch (zext16 x) s.ac) := rfl

end

/-! ### All that a handler does to memory -/

/-- A jump, taken or not, leaves memory as it is. -/
theorem State.ite_jumpTo_mem (s : State) (x : Addr) (c : Bool) : (if c then s.jumpTo x else s).mem = s.mem := by
  cases c <;> rfl

theorem execDiv_mem {x : Addr} {s t : State} (h : execDiv x s = .next t) : t.mem = s.mem := by
  simp only [execDiv] at h
  split at h
  · cases h; rfl
  · cases h; rfl

theorem execInp_mem {s t : State} (h : execInp s = .next t) : t.mem = s.mem := by
  simp only [execInp, State.inNext_eq] at h
  cases hw : s.input.word? s.inpos with
  | none => rw [hw] at h; cases h
  | some v => rw [hw] at h; cases h; rfl

/-- STOR writes AC at its operand, STA writes the patched word there, and every other handler leaves memory as it
is. -/
theorem exec_mem_cases {i : Instr} {s t : State} (h : exec i s = .next t) :
    (∃ x, i = .stor x ∧ t.mem = s.mem.write x.toNat s.ac) ∨
    (∃ x, i = .sta x ∧ t.mem = s.mem.write x.toNat (patchWord (s.mem.read x.toNat) s.ac)) ∨
    t.mem = s.mem := by
  cases i with
  | stor x => rw [exec_stor] at h; cases h; exact .inl ⟨x, rfl, rfl⟩
  | sta x => rw [exec_sta] at h; cases h; exact .inr (.inl ⟨x, rfl, rfl⟩)
  | div x => exact .inr (.inr (execDiv_mem h))
  | jz x => cases h; exact .inr (.inr (s.ite_jumpTo_mem x _))
  | jnz x => cases h; exact .inr (.inr (s.ite_jumpTo_mem x _))
  | jpos x => cases h; exact .inr (.inr (s.ite_jumpTo_mem x _))
  | inp _ => exact .inr (.inr (execInp_mem h))
  | _ => cases h; exact .inr (.inr rfl)

theorem exec_mem_of_not_store {i : Instr} {s t : State} (h : exec i s = .next t)
    (hi : ∀ x, i ≠ .stor x ∧ i ≠ .sta x) : t.mem = s.mem := by
  obtain ⟨x, hstor, -⟩ | ⟨x, hsta, -⟩ | hmem := exec_mem_cases h
  · exact absurd hstor (hi x).1
  · exact absurd hsta (hi x).2
  · exact hmem

/-! ### The obligations of spec/20_memory.md -/

/-- Settles O10: `patchWord` is the combined word in both forms, the written memory obeys the read-after-write laws, and
`exec_mem_of_not_store` gives the only-writer clause. -/
theorem memPatchKeepsTopFourBits : Obligations.MemPatchKeepsTopFourBits := by
  unfold Obligations.MemPatchKeepsTopFourBits
  refine ⟨fun s addr v => ?patch, fun x s => ?sta, fun i s t => exec_mem_of_not_store, ?sample⟩
  case patch =>
    exact ⟨_, _, patchWord_eq_or _ v, patchWord_eq_append _ v, s.memPatch_eq addr v,
      Memory.read_write_same _ _ _, fun _ hb => Memory.read_write_of_ne _ _ hb⟩
  case sta => exact ⟨s.setMar (zext16 x), State.setMar_mem s _, exec_sta_eq_memPatch x s⟩
  case sample => decide

/-- Settles O8: the second read sees the memory of the first, because MemRead keeps memory. -/
theorem memReadReturnsWordAndWritesMbr : Obligations.MemReadReturnsWordAndWritesMbr := by
  unfold Obligations.MemReadReturnsWordAndWritesMbr
  intro s addr
  have hagain : ((s.memRead addr).2.memRead addr).1 = (s.memRead addr).1 := by
    rw [State.memRead_fst, State.memRead_mem, State.memRead_fst]
  exact ⟨s.memRead_eq addr, hagain⟩

/-- Settles O9, by the read-after-write laws of memory and `exec_mem_of_not_store`. -/
theorem memWriteReplacesOneWord : Obligations.MemWriteReplacesOneWord := by
  unfold Obligations.MemWriteReplacesOneWord
  refine ⟨fun s addr v => ?write, fun x s => ?stor, fun i s t => exec_mem_of_not_store⟩
  case write =>
    exact ⟨_, s.memWrite_eq addr v, Memory.read_write_same _ _ v, fun _ hb => Memory.read_write_of_ne _ v hb⟩
  case stor => exact ⟨s.setMar (zext16 x), State.setMar_mem s _, exec_stor_eq_memWrite x s⟩

/-- Settles O11, from the full answers of the three handlers; for STOR the stored word is read back. -/
theorem transfersCopyAllSixteenBits : Obligations.TransfersCopyAllSixteenBits := by
  unfold Obligations.TransfersCopyAllSixteenBits
  intro x s
  exact ⟨⟨_, exec_load x s, rfl⟩, ⟨_, exec_loadMqM x s, rfl⟩,
    ⟨_, exec_stor x s, Memory.read_write_same s.mem x.toNat s.ac⟩⟩

end Sys2Proof.Machine
end

section
/-! The numeric value of an instruction word: opcode times 4096 plus operand field (spec/30_encoding.md R58), and the
obligation O3 about it. -/

namespace Sys2Proof

/-- The two fields do not overlap: the address is below 4096, so joining the fields adds their values. -/
theorem toNat_append_fields (op : Opcode) (x : Addr) :
    (op ++ x : BitVec 16).toNat = op.toNat * 4096 + x.toNat := by
  have hlt : x.toNat < 2 ^ 12 := x.isLt
  rw [BitVec.toNat_append, ← Nat.shiftLeft_add_eq_or_of_lt hlt, Nat.shiftLeft_eq]

theorem toNat_encode (i : Instr) : (encode i).toNat = (opcodeOf i).toNat * 4096 + (operandOf i).toNat :=
  toNat_append_fields (opcodeOf i) (operandOf i)

theorem encode_eq_ofNat (i : Instr) :
    encode i = BitVec.ofNat 16 ((opcodeOf i).toNat * 4096 + (operandOf i).toNat) := by
  rw [← toNat_encode, BitVec.ofNat_toNat, BitVec.setWidth_eq]

/-- Settles O3: `encode_eq_ofNat` is the rule; the four example words are evaluated. -/
theorem wordIsOpcodeTimes4096PlusAddress : Obligations.WordIsOpcodeTimes4096PlusAddress := by
  unfold Obligations.WordIsOpcodeTimes4096PlusAddress
  exact ⟨encode_eq_ofNat, by decide⟩

end Sys2Proof
end

section
/-! The Decode step (spec/40_cycle.md R62): IR and IBR get the two fields of the fetched word, no handler and no
Breakpoint check writes them again, and the obligation O5 about them. -/

namespace Sys2Proof

/-! ### The two fields as a shift and as a mask -/

theorem toNat_opField (w : Word) : (opField w).toNat = (w >>> 12).toNat := by
  have hlt : w.toNat >>> 12 < 2 ^ 4 := BitVec.toNat_ushiftRight_lt w 12 (by decide)
  rw [opField, BitVec.extractLsb'_toNat, BitVec.toNat_ushiftRight, Nat.mod_eq_of_lt hlt]

/-- The mask of bits 11 to 0 is `2 ^ 12 - 1`, so both sides are the word modulo `2 ^ 12`. -/
theorem toNat_addrField (w : Word) : (addrField w).toNat = (w &&& 0x0FFF#16).toNat := by
  calc (addrField w).toNat
      = Machine.maskAddr w := rfl
    _ = w.toNat % 2 ^ 12 := Machine.maskAddr_eq_mod w
    _ = w.toNat &&& (2 ^ 12 - 1) := (Nat.and_two_pow_sub_one_eq_mod w.toNat 12).symm
    _ = (w &&& 0x0FFF#16).toNat := (BitVec.toNat_and w 0x0FFF#16).symm

end Sys2Proof

namespace Sys2Proof.Machine

/-! ### No handler writes IR or IBR -/

/-- A jump, taken or not, keeps IR and IBR. -/
theorem State.ite_jumpTo_ir_ibr (s : State) (x : Addr) (c : Bool) :
    (if c then s.jumpTo x else s).ir = s.ir ∧ (if c then s.jumpTo x else s).ibr = s.ibr := by
  cases c <;> exact ⟨rfl, rfl⟩

/-- DIV keeps IR and IBR, whether it divides or raises ArithmeticFault. -/
theorem execDiv_ir_ibr {x : Addr} {s t : State} (h : execDiv x s = .next t) : t.ir = s.ir ∧ t.ibr = s.ibr := by
  simp only [execDiv] at h
  split at h
  · cases h; exact ⟨rfl, rfl⟩
  · cases h; exact ⟨rfl, rfl⟩

theorem execInp_ir_ibr {s t : State} (h : execInp s = .next t) : t.ir = s.ir ∧ t.ibr = s.ibr := by
  simp only [execInp, State.inNext_eq] at h
  cases hw : s.input.word? s.inpos with
  | none => rw [hw] at h; cases h
  | some v => rw [hw] at h; cases h; exact ⟨rfl, rfl⟩

/-- IR and IBR are written by the Decode step alone: no handler changes them. -/
theorem exec_ir_ibr {i : Instr} {s t : State} (h : exec i s = .next t) : t.ir = s.ir ∧ t.ibr = s.ibr := by
  cases i with
  | div x => exact execDiv_ir_ibr h
  | jz x => cases h; exact s.ite_jumpTo_ir_ibr x _
  | jnz x => cases h; exact s.ite_jumpTo_ir_ibr x _
  | jpos x => cases h; exact s.ite_jumpTo_ir_ibr x _
  | inp _ => exact execInp_ir_ibr h
  | _ => cases h; exact ⟨rfl, rfl⟩

/-- What Decode put into IR and IBR is still there when the cycle is complete. -/
theorem step_ir_ibr {s t : State} (h : step s = .next t) :
    t.ir = opField (s.mem.read (maskAddr s.pc)) ∧ t.ibr = addrField (s.mem.read (maskAddr s.pc)) := by
  obtain ⟨-, u, hexec, rfl⟩ := step_next h
  obtain ⟨hir, hibr⟩ := exec_ir_ibr hexec
  rw [State.breakpointCheck_ir, State.breakpointCheck_ibr, hir, hibr]
  exact ⟨s.fetchDecode_ir, s.fetchDecode_ibr⟩

/-- Settles O5: `step_ir_ibr` gives the slices, `toNat_opField` and `toNat_addrField` the shift and the mask. -/
theorem decodeStepSplitsFetchedWord : Obligations.DecodeStepSplitsFetchedWord := by
  unfold Obligations.DecodeStepSplitsFetchedWord
  rintro s t h w rfl
  obtain ⟨hir, hibr⟩ := step_ir_ibr h
  exact ⟨hir, hibr, hir ▸ toNat_opField _, hibr ▸ toNat_addrField _⟩

end Sys2Proof.Machine
end

section
/-! LOAD_MQ (spec/41_load_store.md R72): a transfer between two registers, without a memory access, and the obligation
O13 about it. -/

namespace Sys2Proof

theorem encode_loadMq (x : Addr) : encode (.loadMq x) = BitVec.ofNat 16 (0x2000 + x.toNat) := by
  have hop : opcodeOf (.loadMq x) = 0x2#4 := rfl
  have hfield : operandOf (.loadMq x) = x := rfl
  have hmatch : (0x2#4).toNat * 4096 = 0x2000 := by decide
  rw [encode_eq_ofNat, hop, hfield, hmatch]

end Sys2Proof

namespace Sys2Proof.Machine

/-- The ignored field does not reach the handler, which only sets AC. -/
theorem exec_loadMq (x : Addr) (s : State) : exec (.loadMq x) s = .next { s with ac := s.mq } := rfl

/-- Settles O13: `exec_loadMq` is the state after, `encode_loadMq` the words. -/
theorem loadMqCopiesMqToAc : Obligations.LoadMqCopiesMqToAc := by
  unfold Obligations.LoadMqCopiesMqToAc
  exact ⟨exec_loadMq, encode_loadMq⟩

end Sys2Proof.Machine
end

section
/-! ADD and SUB (spec/42_arithmetic.md R81, R82, R87): the narrowing of an exact sum or difference, the two transfers,
and the obligation O17 about them. -/

namespace Sys2Proof.Machine

/-! ### Narrowing respects sums and differences, and undoes both readings of a word as an integer -/

theorem w16_add (i j : Int) : w16 (i + j) = w16 i + w16 j := BitVec.ofInt_add i j

theorem w16_sub (i j : Int) : w16 (i - j) = w16 i - w16 j := by
  rw [sub_eq_add_neg, w16_add, sub_eq_add_neg]
  exact congrArg (w16 i + ·) BitVec.ofInt_neg

@[simp] theorem w16_toInt (v : Word) : w16 v.toInt = v := BitVec.ofInt_toInt

@[simp] theorem w16_toNat (v : Word) : w16 (v.toNat : Int) = v := by
  rw [w16, BitVec.ofInt_natCast, BitVec.ofNat_toNat, BitVec.setWidth_eq]

section
variable (a b : Word)

theorem addWord_eq_add : addWord a b = a + b := by
  rw [addWord, w16_add, w16_toInt, w16_toInt]

theorem subWord_eq_sub : subWord a b = a - b := by
  rw [subWord, w16_sub, w16_toInt, w16_toInt]

/-- Signedness does not matter for the bits of a sum (R87). -/
theorem addWord_eq_unsigned : addWord a b = w16 (a.toNat + b.toNat) := by
  rw [addWord_eq_add, w16_add, w16_toNat, w16_toNat]

/-- Signedness does not matter for the bits of a difference (R87). -/
theorem subWord_eq_unsigned : subWord a b = w16 (a.toNat - b.toNat) := by
  rw [subWord_eq_sub, w16_sub, w16_toNat, w16_toNat]

end

/-! ### The two instructions -/

section
variable (x : Addr) (s : State)

theorem exec_add :
    exec (.add x) s =
      .next { s with mar := zext16 x, mbr := s.mem.read x.toNat, ac := addWord s.ac (s.mem.read x.toNat) } := by
  simp only [exec, execAdd, State.readOperand_eq]
  rfl

theorem exec_sub :
    exec (.sub x) s =
      .next { s with mar := zext16 x, mbr := s.mem.read x.toNat, ac := subWord s.ac (s.mem.read x.toNat) } := by
  simp only [exec, execSub, State.readOperand_eq]
  rfl

end

/-- Settles O17: `exec_add` and `exec_sub` are the states after, whose AC is the signed form by definition;
`addWord_eq_unsigned` and `subWord_eq_unsigned` are the unsigned forms; the three examples are evaluated. -/
theorem addSubWrapSilently : Obligations.AddSubWrapSilently := by
  unfold Obligations.AddSubWrapSilently
  refine ⟨?_, by decide⟩
  rintro x s v rfl
  have hadd : addWord s.ac (s.mem.read x.toNat) = BitVec.ofNat 16 (s.ac.toNat + (s.mem.read x.toNat).toNat) := by
    rw [addWord_eq_unsigned, ← Nat.cast_add, w16, BitVec.ofInt_natCast]
  have hsub := subWord_eq_unsigned s.ac (s.mem.read x.toNat)
  exact ⟨⟨_, exec_add x s, rfl, hadd, rfl, rfl, rfl⟩, ⟨_, exec_sub x s, rfl, hsub, rfl, rfl, rfl⟩⟩

end Sys2Proof.Machine
end

section
/-! Truncating division (spec/42_arithmetic.md R85): `tdiv` and `trem` are the library's division rounded toward zero,
and the obligation O22 about them. -/

namespace Sys2Proof.Machine

section
variable (a b : Int)

/-! ### The quotient -/

theorem natAbs_tdiv : (tdiv a b).natAbs = a.natAbs / b.natAbs := by
  unfold tdiv
  split
  · exact Int.natAbs_natCast _
  · rw [Int.natAbs_neg, Int.natAbs_natCast]

/-- A quotient whose size is not 0 comes from a dividend and a divisor that are not 0, so where the model's test finds
their signs equal or different, they are. -/
theorem tdiv_neg_iff :
    tdiv a b < 0 ↔ ((a < 0 ∧ 0 < b) ∨ (0 < a ∧ b < 0)) ∧ 0 < (tdiv a b).natAbs := by
  have hpos : 0 < a.natAbs / b.natAbs → a ≠ 0 ∧ b ≠ 0 := by
    rw [Nat.div_pos_iff]
    omega
  rw [natAbs_tdiv]
  unfold tdiv
  generalize a.natAbs / b.natAbs = q at hpos ⊢
  split <;> omega

/-- The model's quotient is the library's: on each pair of signs the test of `tdiv` chooses the sign that `Int.tdiv`
gives. -/
theorem tdiv_eq_int_tdiv : tdiv a b = Int.tdiv a b := by
  have hnonneg (n : Nat) : 0 ≤ Int.ofNat n := Int.natCast_nonneg n
  have hneg (n : Nat) : ¬ 0 ≤ Int.negSucc n := (Int.negSucc_lt_zero n).not_ge
  cases a with
  | ofNat m =>
    cases b with
    | ofNat n => exact if_pos (iff_of_true (hnonneg m) (hnonneg n))
    | negSucc n => exact if_neg fun h => hneg n (h.mp (hnonneg m))
  | negSucc m =>
    cases b with
    | ofNat n => exact if_neg fun h => hneg m (h.mpr (hnonneg n))
    | negSucc n => exact if_pos (iff_of_false (hneg m) (hneg n))

/-! ### The remainder -/

theorem trem_eq_int_tmod : trem a b = Int.tmod a b := by
  rw [trem, tdiv_eq_int_tdiv, Int.tmod_def, mul_comm]

theorem tdiv_mul_add_trem : tdiv a b * b + trem a b = a := by
  rw [trem]
  exact add_sub_cancel _ a

theorem natAbs_trem : (trem a b).natAbs = a.natAbs % b.natAbs := by
  rw [trem_eq_int_tmod, Int.natAbs_tmod]

theorem natAbs_trem_lt (hb : b ≠ 0) : (trem a b).natAbs < b.natAbs := by
  rw [natAbs_trem]
  exact Nat.mod_lt _ (Int.natAbs_pos.mpr hb)

theorem sign_trem_of_ne_zero (h : trem a b ≠ 0) : (trem a b).sign = a.sign := by
  rw [trem_eq_int_tmod] at h ⊢
  rw [Int.sign_tmod, if_neg fun hdvd => h (Int.tmod_eq_zero_of_dvd hdvd)]

theorem trem_zero_or_sign_of_dividend :
    trem a b = 0 ∨ (0 < trem a b ∧ 0 < a) ∨ (trem a b < 0 ∧ a < 0) := by
  rcases lt_trichotomy (trem a b) 0 with hneg | hzero | hpos
  · have ha : a.sign = -1 := sign_trem_of_ne_zero a b hneg.ne ▸ Int.sign_eq_neg_one_of_neg hneg
    exact .inr (.inr ⟨hneg, Int.sign_eq_neg_one_iff_neg.mp ha⟩)
  · exact .inl hzero
  · have ha : a.sign = 1 := sign_trem_of_ne_zero a b hpos.ne' ▸ Int.sign_eq_one_of_pos hpos
    exact .inr (.inl ⟨hpos, Int.sign_eq_one_iff_pos.mp ha⟩)

end

/-- Settles O22: one lemma per law; only the bound on the remainder needs the divisor not to be 0. -/
theorem divisionTruncatesTowardZero : Obligations.DivisionTruncatesTowardZero := by
  unfold Obligations.DivisionTruncatesTowardZero
  intro a b hb
  exact ⟨natAbs_tdiv a b, tdiv_neg_iff a b, rfl, (tdiv_mul_add_trem a b).symm, natAbs_trem_lt a b hb,
    trem_zero_or_sign_of_dividend a b⟩

end Sys2Proof.Machine
end

section
/-! The jumps (spec/43_control.md R92 to R95): their words, their conditions on AC, the state after a jump that is taken
or not, and the obligations O26, O27, O28 and O29 about them. -/

namespace Sys2Proof

/-! ### The words -/

/-- The word of an instruction whose opcode and operand field are known (R58). -/
theorem encode_eq_add_operand {i : Instr} {x : Addr} (op : Opcode) {base : Nat} (hop : opcodeOf i = op)
    (hx : operandOf i = x) (hbase : op.toNat * 4096 = base) : encode i = BitVec.ofNat 16 (base + x.toNat) := by
  rw [encode_eq_ofNat, hop, hx, hbase]

section
variable (x : Addr)

theorem encode_jmp : encode (.jmp x) = BitVec.ofNat 16 (0xA000 + x.toNat) :=
  encode_eq_add_operand 0xA#4 rfl rfl (by decide)

theorem encode_jz : encode (.jz x) = BitVec.ofNat 16 (0xB000 + x.toNat) :=
  encode_eq_add_operand 0xB#4 rfl rfl (by decide)

theorem encode_jnz : encode (.jnz x) = BitVec.ofNat 16 (0xC000 + x.toNat) :=
  encode_eq_add_operand 0xC#4 rfl rfl (by decide)

theorem encode_jpos : encode (.jpos x) = BitVec.ofNat 16 (0xD000 + x.toNat) :=
  encode_eq_add_operand 0xD#4 rfl rfl (by decide)

end

end Sys2Proof

namespace Sys2Proof.Machine

open Sys2Proof.Safety

/-! ### The conditions -/

section
variable (ac : Word)

theorem isZero_iff : isZero ac ↔ ac = 0x0000#16 := by
  rw [isZero, beq_iff_eq]
  exact BitVec.toNat_inj (y := 0x0000#16)

theorem isNonzero_iff : isNonzero ac ↔ ac ≠ 0x0000#16 := by
  rw [isNonzero, bne_iff_ne]
  exact (BitVec.toNat_inj (y := 0x0000#16)).not

theorem isNonnegative_iff : isNonnegative ac ↔ 0 ≤ ac.toInt := decide_eq_true_iff

/-- Bit 15 is the sign bit (R95). -/
theorem toInt_nonneg_iff_bit15 : 0 ≤ ac.toInt ↔ ac.getLsbD 15 = false := by
  have hsign : ac.getLsbD 15 = decide (ac.toInt < 0) := (BitVec.msb_eq_getLsbD_last ac).symm.trans BitVec.msb_eq_toInt
  rw [hsign, decide_eq_false_iff_not, not_lt]

/-- With the same operand, JNZ is taken on exactly the ACs on which JZ is not (R94). -/
theorem takesJump_jnz_iff_not_jz (x : Addr) : takesJump (.jnz x) ac ↔ ¬ takesJump (.jz x) ac := by
  have hjz : takesJump (.jz x) ac ↔ ac = 0x0000#16 := decide_eq_true_iff
  have hjnz : takesJump (.jnz x) ac ↔ ac ≠ 0x0000#16 := decide_eq_true_iff
  rw [hjz, hjnz]

end

/-! ### The state after -/

section
variable (x : Addr) (s : State)

/-- The shape of every conditional jump: only PC can change, and it does when the tested condition `p` holds. -/
theorem State.ite_jumpTo_eq {c : Bool} {p : Prop} [Decidable p] (hc : c ↔ p) :
    (if c then s.jumpTo x else s) = { s with pc := if p then x.setWidth 16 else s.pc } := by
  by_cases hp : p
  · rw [if_pos (hc.mpr hp), if_pos hp]
    exact s.jumpTo_eq x
  · rw [if_neg (hc.not.mpr hp), if_neg hp]

theorem exec_jmp : exec (.jmp x) s = .next { s with pc := x.setWidth 16 } :=
  congrArg Host.Outcome.next (s.jumpTo_eq x)

theorem exec_jz : exec (.jz x) s = .next { s with pc := if s.ac = 0x0000#16 then x.setWidth 16 else s.pc } :=
  congrArg Host.Outcome.next (s.ite_jumpTo_eq x (isZero_iff s.ac))

theorem exec_jnz : exec (.jnz x) s = .next { s with pc := if s.ac ≠ 0x0000#16 then x.setWidth 16 else s.pc } :=
  congrArg Host.Outcome.next (s.ite_jumpTo_eq x (isNonzero_iff s.ac))

theorem exec_jpos : exec (.jpos x) s = .next { s with pc := if 0 ≤ s.ac.toInt then x.setWidth 16 else s.pc } :=
  congrArg Host.Outcome.next (s.ite_jumpTo_eq x (isNonnegative_iff s.ac))

/-- JPOS jumps on zero too (R95). -/
theorem exec_jpos_of_ac_zero (hac : s.ac = 0x0000#16) : exec (.jpos x) s = .next { s with pc := x.setWidth 16 } := by
  have hnonneg : 0 ≤ s.ac.toInt := by rw [hac, BitVec.toInt_zero]
  rw [exec_jpos, if_pos hnonneg]

end

/-! ### The obligations of spec/43_control.md on the jumps -/

/-- Settles O26: `encode_jmp` is the words, `exec_jmp` the state after. -/
theorem jmpSetsPc : Obligations.JmpSetsPc := by
  unfold Obligations.JmpSetsPc
  exact ⟨encode_jmp, exec_jmp⟩

/-- Settles O27: `encode_jz` is the words, `exec_jz` the state after. -/
theorem jzJumpsOnZero : Obligations.JzJumpsOnZero := by
  unfold Obligations.JzJumpsOnZero
  exact ⟨encode_jz, exec_jz⟩

/-- Settles O28: `encode_jnz` is the words, `exec_jnz` the state after, and `takesJump_jnz_iff_not_jz` makes JZ and JNZ
complements. -/
theorem jnzJumpsOnNonzero : Obligations.JnzJumpsOnNonzero := by
  unfold Obligations.JnzJumpsOnNonzero
  exact ⟨encode_jnz, exec_jnz, fun x ac => takesJump_jnz_iff_not_jz ac x⟩

/-- Settles O29: `encode_jpos` is the words, `exec_jpos` the state after, `toInt_nonneg_iff_bit15` the form on bit 15,
and `exec_jpos_of_ac_zero` the case of zero. -/
theorem jposJumpsOnNonnegative : Obligations.JposJumpsOnNonnegative := by
  unfold Obligations.JposJumpsOnNonnegative
  exact ⟨encode_jpos, exec_jpos, toInt_nonneg_iff_bit15, exec_jpos_of_ac_zero⟩

end Sys2Proof.Machine
end

section
/-! OUT (spec/44_io.md R103): its words, the state after it, and the obligation O32 about both. -/

namespace Sys2Proof

theorem encode_out (x : Addr) : encode (.out x) = BitVec.ofNat 16 (0xF000 + x.toNat) :=
  encode_eq_add_operand 0xF#4 rfl rfl (by decide)

end Sys2Proof

namespace Sys2Proof.Machine

/-- An event reaches TRACE alone, at its end (R22). -/
theorem State.emit_eq (s : State) (e : Event) : s.emit e = { s with trace := s.trace ++ [e] } := rfl

/-- The ignored field does not reach the handler, which only emits. -/
theorem exec_out (x : Addr) (s : State) : exec (.out x) s = .next { s with trace := s.trace ++ [.out s.ac] } :=
  congrArg Host.Outcome.next (s.emit_eq (.out s.ac))

/-- Settles O32: `encode_out` is the words, `exec_out` the state after. -/
theorem outEmitsAc : Obligations.OutEmitsAc := by
  unfold Obligations.OutEmitsAc
  exact ⟨encode_out, exec_out⟩

end Sys2Proof.Machine
end

section
/-! The Breakpoint Monitor over runs (spec/45_snapshot_monitor.md R112, R114, R115). A cycle reads neither BP nor TRACE
but for the Breakpoint check, so from the same machine under another monitor it completes in the same way, with the same
Execute events and its own snapshot. What one cycle adds to TRACE is the case of the machine's own monitor. The
obligation O45 is the induction over the cycles of a run. -/

namespace Sys2Proof.Machine

open Sys2Proof.Safety

/-! ### The same machine under another monitor -/

/-- The machine of `s`, observed with the breakpoints `b` and with TRACE so far `tr`. -/
def State.withMonitor (s : State) (b : List Nat) (tr : List Event) : State := { s with bp := b, trace := tr }

/-- The events of a Breakpoint check that has the breakpoints `b` and fetched from `pre`, on the registers of `s`. -/
def State.snapEvents (s : State) (b : List Nat) (pre : Word) : List Event :=
  if pre.toNat ∈ b then [.snap (s.snapshot pre (nextPc pre))] else []

section
variable (s : State) (b : List Nat) (tr : List Event)

theorem State.withMonitor_self : s.withMonitor s.bp s.trace = s := rfl

@[simp] theorem State.withMonitor_pc : (s.withMonitor b tr).pc = s.pc := rfl

@[simp] theorem State.withMonitor_run : (s.withMonitor b tr).run = s.run := rfl

@[simp] theorem State.withMonitor_bp : (s.withMonitor b tr).bp = b := rfl

@[simp] theorem State.withMonitor_fetchDecode :
    (s.withMonitor b tr).fetchDecode = s.fetchDecode.withMonitor b tr := rfl

@[simp] theorem nextInstr_withMonitor : nextInstr (s.withMonitor b tr) = nextInstr s := rfl

/-- The Breakpoint check of the other monitor appends its own snapshot event, whatever the first monitor appended. -/
theorem State.withMonitor_breakpointCheck (pre : Word) :
    (s.withMonitor b tr).breakpointCheck pre (nextPc pre) =
      (s.breakpointCheck pre (nextPc pre)).withMonitor b
        (tr ++ (s.breakpointCheck pre (nextPc pre)).snapEvents b pre) := by
  have hmachine : ∀ tr', (s.breakpointCheck pre (nextPc pre)).withMonitor b tr' = s.withMonitor b tr' := by
    intro tr'
    rw [State.breakpointCheck_eq]
    split <;> rfl
  have hsnap : (s.breakpointCheck pre (nextPc pre)).snapEvents b pre = s.snapEvents b pre := by
    rw [State.breakpointCheck_eq]
    split <;> rfl
  rw [hmachine, hsnap, State.breakpointCheck_eq, State.withMonitor_bp, State.snapEvents]
  split
  · rfl
  · rw [List.append_nil]

end

/-! ### One cycle -/

/-- A jump, taken or not, reads and writes nothing of the monitor: it has no events. -/
theorem State.ite_jumpTo_withMonitor (s : State) (x : Addr) (c : Bool) (b : List Nat) (tr : List Event) :
    (if c then (s.withMonitor b tr).jumpTo x else s.withMonitor b tr) =
      (if c then s.jumpTo x else s).withMonitor b (tr ++ []) := by
  rw [List.append_nil]
  cases c <;> rfl

theorem execDiv_withMonitor {x : Addr} {s t : State} (h : execDiv x s = .next t) (b : List Nat) (tr : List Event) :
    execDiv x (s.withMonitor b tr) = .next (t.withMonitor b (tr ++ executeEvents (.div x) s)) := by
  have hmem : (s.withMonitor b tr).mem = s.mem := rfl
  simp only [execDiv, State.readOperand_eq, hmem, executeEvents] at h ⊢
  split at h
  · next hzero =>
    cases h
    rw [if_pos hzero, if_pos hzero]
    rfl
  · next hnonzero =>
    cases h
    rw [if_neg hnonzero, if_neg hnonzero, List.append_nil]
    rfl

theorem execInp_withMonitor {x : Addr} {s t : State} (h : execInp s = .next t) (b : List Nat) (tr : List Event) :
    execInp (s.withMonitor b tr) = .next (t.withMonitor b (tr ++ executeEvents (.inp x) s)) := by
  have hword : (s.withMonitor b tr).input.word? (s.withMonitor b tr).inpos = s.input.word? s.inpos := rfl
  simp only [execInp, State.inNext_eq, hword, executeEvents] at h ⊢
  cases hw : s.input.word? s.inpos with
  | none => rw [hw] at h; cases h
  | some v => rw [hw] at h; cases h; rfl

/-- A handler that answers a state does so under every monitor: it leaves BP as it is and appends the events of its
Execute step, which depend on neither BP nor TRACE. -/
theorem exec_withMonitor {i : Instr} {s t : State} (h : exec i s = .next t) (b : List Nat) (tr : List Event) :
    exec i (s.withMonitor b tr) = .next (t.withMonitor b (tr ++ executeEvents i s)) := by
  cases i with
  | halt _ => cases h; rfl
  | out _ => cases h; rfl
  | div x => exact execDiv_withMonitor h b tr
  | inp x => exact execInp_withMonitor h b tr
  | jz x => cases h; exact congrArg Host.Outcome.next (s.ite_jumpTo_withMonitor x _ b tr)
  | jnz x => cases h; exact congrArg Host.Outcome.next (s.ite_jumpTo_withMonitor x _ b tr)
  | jpos x => cases h; exact congrArg Host.Outcome.next (s.ite_jumpTo_withMonitor x _ b tr)
  | _ =>
    cases h
    rw [executeEvents, List.append_nil]
    rfl

/-- A completed cycle completes under every monitor, with the same machine after it. -/
theorem step_withMonitor {s t : State} (h : step s = .next t) (b : List Nat) (tr : List Event) :
    step (s.withMonitor b tr) =
      .next (t.withMonitor b (tr ++ executeEvents (nextInstr s) s ++ t.snapEvents b s.pc)) := by
  obtain ⟨hrun, u, hexec, rfl⟩ := step_next h
  have hevents : executeEvents (nextInstr s) s.fetchDecode = executeEvents (nextInstr s) s := rfl
  have hexec' := exec_withMonitor hexec b tr
  rw [hevents] at hexec'
  rw [step_of_running (by simpa using hrun), nextInstr_withMonitor, State.withMonitor_fetchDecode, State.withMonitor_pc,
    hexec', finishCycle_next, State.withMonitor_breakpointCheck]

/-- What a cycle does under its own monitor: BP stays, and TRACE grows by the Execute events and then the snapshot. -/
theorem step_bp_trace {s t : State} (h : step s = .next t) :
    t.bp = s.bp ∧ t.trace = s.trace ++ executeEvents (nextInstr s) s ++ t.snapEvents s.bp s.pc := by
  have hself := step_withMonitor h s.bp s.trace
  rw [State.withMonitor_self, h] at hself
  have hstate := Host.Outcome.next.inj hself
  have hbp := congrArg State.bp hstate
  have htrace := congrArg State.trace hstate
  exact ⟨hbp, htrace⟩

/-! ### The snapshots of a cycle -/

@[simp] theorem snapsOf_append (t u : List Event) : snapsOf (t ++ u) = snapsOf t ++ snapsOf u :=
  List.filterMap_append

/-- The Execute step emits no snapshot (R22, R112). -/
@[simp] theorem snapsOf_executeEvents (i : Instr) (s : State) : snapsOf (executeEvents i s) = [] := by
  cases i with
  | div x =>
    simp only [executeEvents]
    split <;> rfl
  | inp _ =>
    simp only [executeEvents]
    cases s.input.word? s.inpos <;> rfl
  | _ => rfl

/-- The Breakpoint check emits one snapshot, of the pre-fetch PC, when that is a breakpoint, and none otherwise. -/
theorem map_pcPre_snapsOf_snapEvents (s : State) (b : List Nat) (pre : Word) :
    (snapsOf (s.snapEvents b pre)).map Snapshot.pcPre = [pre].filter (fun p => decide (p.toNat ∈ b)) := by
  rw [State.snapEvents, List.filter_singleton]
  by_cases hmem : pre.toNat ∈ b
  · rw [if_pos hmem, decide_eq_true hmem]
    rfl
  · rw [if_neg hmem, decide_eq_false hmem]
    rfl

theorem step_map_pcPre {s t : State} (h : step s = .next t) :
    (snapsOf t.trace).map Snapshot.pcPre =
      (snapsOf s.trace).map Snapshot.pcPre ++ [s.pc].filter (fun p => decide (p.toNat ∈ s.bp)) := by
  rw [(step_bp_trace h).2, snapsOf_append, snapsOf_append, snapsOf_executeEvents, List.append_nil, List.map_append,
    map_pcPre_snapsOf_snapEvents]

/-! ### Runs of many cycles -/

theorem visits_succ_of_next {s t : State} (n : Nat) (h : step s = .next t) :
    visits (n + 1) s = s.pc :: visits n t := by
  simp only [visits, h]

theorem runCycles_bp {n : Nat} {s t : State} (h : runCycles n s = .next t) : t.bp = s.bp :=
  runCycles_keeps (P := fun u => u.bp = s.bp) (fun _ _ hstep hbp => (step_bp_trace hstep).1.trans hbp) n s t h rfl

theorem length_visits {n : Nat} {s t : State} (h : runCycles n s = .next t) : (visits n s).length = n := by
  induction n generalizing s with
  | zero => rfl
  | succ n ih =>
    obtain ⟨u, hstep, hrun⟩ := runCycles_succ_next h
    rw [visits_succ_of_next n hstep, List.length_cons, ih hrun]

/-- R114 for any run from any state: the snapshots appended are those of the visits to a breakpoint, in order. -/
theorem runCycles_map_pcPre {n : Nat} {s t : State} (h : runCycles n s = .next t) :
    (snapsOf t.trace).map Snapshot.pcPre =
      (snapsOf s.trace).map Snapshot.pcPre ++ (visits n s).filter (fun p => decide (p.toNat ∈ s.bp)) := by
  induction n generalizing s with
  | zero =>
    cases h
    exact (List.append_nil _).symm
  | succ n ih =>
    obtain ⟨u, hstep, hrun⟩ := runCycles_succ_next h
    rw [ih hrun, step_map_pcPre hstep, (step_bp_trace hstep).1, visits_succ_of_next n hstep, List.append_assoc,
      ← List.filter_append, List.singleton_append]

/-- The number of snapshots is the number of visits to a breakpoint: the length of the list of `runCycles_map_pcPre`. -/
theorem runCycles_length_snapsOf {n : Nat} {s t : State} (h : runCycles n s = .next t) (htrace : s.trace = []) :
    (snapsOf t.trace).length = (visits n s).countP (fun p => decide (p.toNat ∈ s.bp)) := by
  have hnone : snapsOf s.trace = [] := by rw [htrace]; rfl
  have hsnaps := runCycles_map_pcPre h
  rw [hnone, List.map_nil, List.nil_append] at hsnaps
  rw [← List.length_map Snapshot.pcPre, hsnaps, List.countP_eq_length_filter]

/-- A completed run completes under every monitor, with the same machine after it and through the same addresses. -/
theorem runCycles_withMonitor {n : Nat} {s t : State} (h : runCycles n s = .next t) (b : List Nat) (tr : List Event) :
    (∃ tr', runCycles n (s.withMonitor b tr) = .next (t.withMonitor b tr')) ∧
      visits n (s.withMonitor b tr) = visits n s := by
  induction n generalizing s tr with
  | zero =>
    cases h
    exact ⟨⟨tr, rfl⟩, rfl⟩
  | succ n ih =>
    obtain ⟨u, hstep, hrun⟩ := runCycles_succ_next h
    have hstep' := step_withMonitor hstep b tr
    obtain ⟨⟨tr', hrun'⟩, hvisits⟩ := ih hrun (tr ++ executeEvents (nextInstr s) s ++ u.snapEvents b s.pc)
    refine ⟨⟨tr', (runCycles_succ_of_next n hstep').trans hrun'⟩, ?_⟩
    rw [visits_succ_of_next n hstep', visits_succ_of_next n hstep, hvisits, State.withMonitor_pc]

/-- Settles O45, by induction over the cycles of the run: `runCycles_map_pcPre` is the list of snapshots,
`runCycles_length_snapsOf` its length, and `runCycles_withMonitor` the run with other breakpoints. -/
theorem oneSnapshotPerVisit : Obligations.OneSnapshotPerVisit := by
  unfold Obligations.OneSnapshotPerVisit
  refine ⟨fun n s t h => ?snapshots, fun n s t => runCycles_length_snapsOf, fun n s t b h => ?otherBreakpoints⟩
  case snapshots => exact ⟨length_visits h, runCycles_bp h, runCycles_map_pcPre h⟩
  case otherBreakpoints =>
    obtain ⟨⟨tr, hrun⟩, hvisits⟩ := runCycles_withMonitor h b s.trace
    exact ⟨t.withMonitor b tr, hrun, hvisits⟩

end Sys2Proof.Machine
end

section
/-! Decoding and encoding are inverse (spec/30_encoding.md R53, R55): the opcode map is a bijection between opcodes and
constructors, for every operand field. The obligations O1 and O4. -/

namespace Sys2Proof

section
variable (op : Opcode) (x : Addr)

@[simp] theorem operandOf_instrOf : operandOf (instrOf op x) = x := by
  unfold instrOf
  split <;> rfl

/-- The operand field has no part in the choice of the row of the opcode map (R53). -/
theorem opcodeOf_instrOf_congr (y : Addr) : opcodeOf (instrOf op x) = opcodeOf (instrOf op y) := by
  unfold instrOf
  split <;> rfl

/-- Each of the sixteen opcodes selects the row of the map that has it; one operand field stands for all. -/
@[simp] theorem opcodeOf_instrOf : opcodeOf (instrOf op x) = op := by
  have hmap : ∀ o : Opcode, opcodeOf (instrOf o 0x000#12) = o := by decide
  rw [opcodeOf_instrOf_congr op x 0x000#12, hmap]

end

theorem instrOf_opcodeOf_operandOf (i : Instr) : instrOf (opcodeOf i) (operandOf i) = i := by
  cases i <;> simp only [opcodeOf, operandOf] <;> simp [instrOf]

theorem opcodeOf_decode (w : Word) : opcodeOf (decode w) = opField w := opcodeOf_instrOf _ _

theorem operandOf_decode (w : Word) : operandOf (decode w) = addrField w := operandOf_instrOf _ _

theorem decode_encode (i : Instr) : decode (encode i) = i := by
  rw [decode, encode, opField_append, addrField_append, instrOf_opcodeOf_operandOf]

theorem encode_decode (w : Word) : encode (decode w) = w := by
  rw [encode, opcodeOf_decode, operandOf_decode, append_fields]

/-- The words of one row of the opcode map are those with the row's opcode. -/
theorem exists_decode_eq_iff {w : Word} {op : Opcode} {row : Addr → Instr} (hrow : ∀ x, instrOf op x = row x) :
    (∃ x, decode w = row x) ↔ opField w = op := by
  constructor
  · rintro ⟨x, hx⟩
    rw [← opcodeOf_decode, hx, ← hrow, opcodeOf_instrOf]
  · intro hop
    exact ⟨addrField w, by rw [decode, hop, hrow]⟩

/-- Settles O1. -/
theorem decodeInvertsEncode : Obligations.DecodeInvertsEncode := by
  unfold Obligations.DecodeInvertsEncode
  exact decode_encode

/-- Settles O4, by decoding each of the sixteen written-out words. -/
theorem opcodeMapWordsDecode : Obligations.OpcodeMapWordsDecode := by
  unfold Obligations.OpcodeMapWordsDecode
  decide

end Sys2Proof
end

section
/-! Addresses (spec/20_memory.md R30, R35) and the transfers of spec/41_load_store.md and ADD and SUB of
spec/42_arithmetic.md as full states after. The obligations O6, O7, O12, O14, O15, O16, O18 and O19. -/

namespace Sys2Proof.Machine

/-- Settles O7: the mask is the remainder modulo 4096 (`maskAddr_eq_mod`), and bits 11 to 0 (`toNat_addrField`). -/
theorem addressesAreMaskedToTwelveBits : Obligations.AddressesAreMaskedToTwelveBits := by
  unfold Obligations.AddressesAreMaskedToTwelveBits
  have hsmall : ∀ addr : Word, addr.toNat < 4096 → maskAddr addr = addr.toNat := by
    intro addr hlt
    rw [maskAddr_eq_mod, Nat.mod_eq_of_lt hlt]
  exact ⟨fun addr => ⟨maskAddr_eq_mod addr, toNat_addrField addr⟩, hsmall, maskAddr_zext16⟩

/-- Settles O6: the four arms of the dispatch do not mention the field. -/
theorem operandlessHandlersIgnoreField : Obligations.OperandlessHandlersIgnoreField := by
  unfold Obligations.OperandlessHandlersIgnoreField
  intro x y s
  exact ⟨rfl, rfl, rfl, rfl⟩

/-- Settles O12. -/
theorem loadSetsAcMbrMar : Obligations.LoadSetsAcMbrMar := by
  unfold Obligations.LoadSetsAcMbrMar
  exact exec_load

/-- Settles O14. -/
theorem loadMqMSetsMqMbrMar : Obligations.LoadMqMSetsMqMbrMar := by
  unfold Obligations.LoadMqMSetsMqMbrMar
  exact exec_loadMqM

/-- Settles O15: `exec_stor` writes AC at the operand, and the read-after-write laws say what memory then holds. -/
theorem storReplacesOneWord : Obligations.StorReplacesOneWord := by
  unfold Obligations.StorReplacesOneWord
  rintro x s a rfl
  rw [maskAddr_zext16]
  exact ⟨rfl, _, exec_stor x s, Memory.read_write_same _ _ _, fun _ hb => Memory.read_write_of_ne _ _ hb⟩

@[simp] theorem opField_patchWord (old v : Word) : opField (patchWord old v) = opField old := by
  rw [patchWord_eq_append, opField_append]

@[simp] theorem addrField_patchWord (old v : Word) : addrField (patchWord old v) = addrField v := by
  rw [patchWord_eq_append, addrField_append]

/-- Settles O16: the patched word is `patchWord` (`patchWord_eq_or`), whose two fields are known, and `exec_sta` writes it
at the operand. -/
theorem staPatchesOperandField : Obligations.StaPatchesOperandField := by
  unfold Obligations.StaPatchesOperandField
  rintro x s a new rfl hnew
  rw [← patchWord_eq_or] at hnew
  subst hnew
  rw [maskAddr_zext16]
  exact ⟨rfl, opField_patchWord _ _, addrField_patchWord _ _, _, exec_sta x s, Memory.read_write_same _ _ _,
    fun _ hb => Memory.read_write_of_ne _ _ hb⟩

/-- Settles O18: the narrowed exact sum is the sum of the words. -/
theorem addSetsAcMbrMar : Obligations.AddSetsAcMbrMar := by
  unfold Obligations.AddSetsAcMbrMar
  intro x s
  rw [exec_add, addWord_eq_add]
  rfl

/-- Settles O19: the narrowed exact difference is the difference of the words. -/
theorem subSetsAcMbrMar : Obligations.SubSetsAcMbrMar := by
  unfold Obligations.SubSetsAcMbrMar
  intro x s
  rw [exec_sub, subWord_eq_sub]
  rfl

end Sys2Proof.Machine
end

section
/-! MUL (spec/42_arithmetic.md R83, R86): the 32-bit product is exact, its low half does not depend on signedness, and
neither half does on non-negative operands. The obligations O20 and O21. -/

namespace Sys2Proof.Machine

theorem exec_mul (x : Addr) (s : State) :
    exec (.mul x) s =
      .next { s with
        mar := zext16 x
        mbr := s.mem.read x.toNat
        ac := (mulProduct s.mq (s.mem.read x.toNat)).extractLsb' 16 16
        mq := (mulProduct s.mq (s.mem.read x.toNat)).extractLsb' 0 16 } := by
  simp only [exec, execMul, State.readOperand_eq]
  rfl

section
variable (a b : Word)

/-- The product of two signed words fits in 32 bits, so narrowing loses nothing. -/
theorem mulProduct_toInt : (mulProduct a b).toInt = a.toInt * b.toInt := by
  have hle : a.toInt * b.toInt ≤ 2 ^ (16 * 2 - 2) := BitVec.toInt_mul_toInt_le
  have hge : -2 ^ (16 * 2 - 2) ≤ a.toInt * b.toInt := BitVec.le_toInt_mul_toInt
  exact BitVec.toInt_ofInt_eq_self (by decide) (by omega) (by omega)

theorem w32_low_half (i : Int) : (w32 i).extractLsb' 0 16 = w16 i := by
  apply BitVec.eq_of_toNat_eq
  simp only [w32, w16, BitVec.extractLsb'_toNat, BitVec.toNat_ofInt, Nat.shiftRight_zero]
  omega

/-- The low half of the signed product is the product of the words, so it is that of the unsigned operands too (U2). -/
theorem mulProduct_low_half : (mulProduct a b).extractLsb' 0 16 = BitVec.ofNat 16 (a.toNat * b.toNat) := by
  calc (mulProduct a b).extractLsb' 0 16
      = w16 (a.toInt * b.toInt) := w32_low_half _
    _ = w16 a.toInt * w16 b.toInt := BitVec.ofInt_mul _ _
    _ = w16 (a.toNat : Int) * w16 (b.toNat : Int) := by rw [w16_toInt, w16_toInt, w16_toNat, w16_toNat]
    _ = w16 ((a.toNat * b.toNat : Nat) : Int) := by rw [Nat.cast_mul]; exact (BitVec.ofInt_mul _ _).symm
    _ = BitVec.ofNat 16 (a.toNat * b.toNat) := BitVec.ofInt_natCast _ _

/-- On operands with bit 15 clear the signed product is the unsigned one, in all 32 bits (U2). -/
theorem mulProduct_toNat_of_nonneg (ha : a.toNat < 32768) (hb : b.toNat < 32768) :
    (mulProduct a b).toNat = a.toNat * b.toNat := by
  have hbound : a.toNat * b.toNat < 32768 * 32768 := Nat.mul_lt_mul'' ha hb
  have hunsigned : mulProduct a b = BitVec.ofNat 32 (a.toNat * b.toNat) := by
    rw [mulProduct, BitVec.toInt_eq_toNat_of_lt (by omega), BitVec.toInt_eq_toNat_of_lt (by omega), ← Nat.cast_mul]
    exact BitVec.ofInt_natCast _ _
  rw [hunsigned, BitVec.toNat_ofNat, Nat.mod_eq_of_lt (by omega)]

end

/-- The two halves that MUL puts into AC and MQ are the whole of the product. -/
theorem toNat_halves (p : BitVec 32) : (p.extractLsb' 16 16).toNat * 65536 + (p.extractLsb' 0 16).toNat = p.toNat := by
  simp only [BitVec.extractLsb'_toNat, Nat.shiftRight_eq_div_pow]
  omega

/-- Settles O20: AC and MQ are the two halves of `mulProduct`, which is exact. -/
theorem mulGivesExactSignedProduct : Obligations.MulGivesExactSignedProduct := by
  unfold Obligations.MulGivesExactSignedProduct
  rintro x s v rfl
  refine ⟨_, _, exec_mul x s, ?_⟩
  rw [BitVec.extractLsb'_append_extractLsb', mulProduct_toInt]

/-- Settles O21: `mulProduct_low_half` is MQ, `mulProduct_toNat_of_nonneg` both halves. -/
theorem mulAgreesWithUnsignedWhereSpecSays : Obligations.MulAgreesWithUnsignedWhereSpecSays := by
  unfold Obligations.MulAgreesWithUnsignedWhereSpecSays
  rintro x s v rfl
  exact ⟨_, exec_mul x s, mulProduct_low_half _ _,
    fun hmq hv => (toNat_halves _).trans (mulProduct_toNat_of_nonneg _ _ hmq hv)⟩

end Sys2Proof.Machine
end

section
/-! DIV (spec/42_arithmetic.md R84): the state after with a zero and with another divisor, and the results as the
library's signed division of words. The obligation O23. -/

namespace Sys2Proof.Machine

section
variable {x : Addr} {s : State}

/-- The fault is raised after the operand read and before AC or MQ is written (R84, R123). -/
theorem exec_div_of_zero (hd : s.mem.read x.toNat = 0#16) :
    exec (.div x) s = .next (State.raise { s with mar := zext16 x, mbr := 0#16 } .arithmeticFault) := by
  simp only [exec, execDiv, State.readOperand_eq, hd, if_true]

theorem exec_div_of_ne_zero (hd : s.mem.read x.toNat ≠ 0#16) :
    exec (.div x) s =
      .next { s with
        mar := zext16 x
        mbr := s.mem.read x.toNat
        mq := divQuotient s.ac (s.mem.read x.toNat)
        ac := divRemainder s.ac (s.mem.read x.toNat) } := by
  simp only [exec, execDiv, State.readOperand_eq, if_neg hd]
  rfl

end

section
variable (a d : Word)

theorem divQuotient_eq_ofInt_tdiv : divQuotient a d = BitVec.ofInt 16 (Int.tdiv a.toInt d.toInt) := by
  rw [divQuotient, tdiv_eq_int_tdiv, w16]

theorem divRemainder_eq_ofInt_tmod : divRemainder a d = BitVec.ofInt 16 (Int.tmod a.toInt d.toInt) := by
  rw [divRemainder, trem_eq_int_tmod, w16]

/-- A remainder always fits in a word. -/
theorem divRemainder_toInt : (divRemainder a d).toInt = Int.tmod a.toInt d.toInt := by
  rw [divRemainder_eq_ofInt_tmod, ← BitVec.toInt_srem, BitVec.ofInt_toInt]

/-- A quotient fits in a word but for -32768 / -1 (D4). -/
theorem divQuotient_toInt (h : ¬ (a = 0x8000#16 ∧ d = 0xFFFF#16)) :
    (divQuotient a d).toInt = Int.tdiv a.toInt d.toInt := by
  have hfits := BitVec.toInt_sdiv_of_ne_or_ne a d (not_and_or.1 h)
  rw [divQuotient_eq_ofInt_tdiv, ← hfits, BitVec.ofInt_toInt]

/-- The dividend is recovered from the two narrowed results, but for -32768 / -1 (R84). -/
theorem divQuotient_mul_add_divRemainder (h : ¬ (a = 0x8000#16 ∧ d = 0xFFFF#16)) :
    a.toInt = (divQuotient a d).toInt * d.toInt + (divRemainder a d).toInt := by
  rw [divQuotient_toInt a d h, divRemainder_toInt, Int.tdiv_mul_add_tmod]

end

/-- Settles O23: `exec_div_of_ne_zero` is the state after; the identity holds wherever the quotient fits, and the one
corner is evaluated. -/
theorem divGivesQuotientAndRemainder : Obligations.DivGivesQuotientAndRemainder := by
  unfold Obligations.DivGivesQuotientAndRemainder
  rintro x s d rfl hd
  have hcorner : divQuotient 0x8000#16 0xFFFF#16 = 0x8000#16 ∧ divRemainder 0x8000#16 0xFFFF#16 = 0x0000#16 := by decide
  refine ⟨_, _, exec_div_of_ne_zero hd, divQuotient_eq_ofInt_tdiv _ _, divRemainder_eq_ofInt_tmod _ _,
    divQuotient_mul_add_divRemainder _ _, ?_⟩
  rintro ⟨hac, hd'⟩
  rw [hac, hd']
  exact hcorner

end Sys2Proof.Machine
end

section
/-! IN (spec/44_io.md R100 to R102): the state after when a word is available, and the fault when none is. The obligation
O30. -/

namespace Sys2Proof

theorem encode_inp (x : Addr) : encode (.inp x) = BitVec.ofNat 16 (0xE000 + x.toNat) :=
  encode_eq_add_operand 0xE#4 rfl rfl (by decide)

end Sys2Proof

namespace Sys2Proof.Machine

section
variable {s : State}

theorem exec_inp_of_word (x : Addr) {v : Word} (hv : s.input.word? s.inpos = some v) :
    exec (.inp x) s = .next { s with ac := v, inpos := s.inpos + 1, trace := s.trace ++ [.inp v] } := by
  simp only [exec, execInp, State.inNext_eq, hv]
  rfl

theorem exec_inp_of_exhausted (x : Addr) (hnone : s.input.word? s.inpos = none) :
    exec (.inp x) s = .fault .blocked := by
  simp only [exec, execInp, State.inNext_eq, hnone]
  rfl

/-- IN answers a state only when a word is available, and then the one of `exec_inp_of_word`. -/
theorem exec_inp_next {x : Addr} {t : State} (h : exec (.inp x) s = .next t) :
    ∃ v, s.input.word? s.inpos = some v ∧
      t = { s with ac := v, inpos := s.inpos + 1, trace := s.trace ++ [.inp v] } := by
  cases hword : s.input.word? s.inpos with
  | none => rw [exec_inp_of_exhausted x hword] at h; cases h
  | some v => rw [exec_inp_of_word x hword] at h; cases h; exact ⟨v, rfl, rfl⟩

end

/-- Settles O30: with a word available `exec_inp_of_word` is the state after, for a finite and for an endless INPUT; a
finite INPUT has a word exactly below its length. -/
theorem inTakesNextInputWord : Obligations.InTakesNextInputWord := by
  unfold Obligations.InTakesNextInputWord
  refine ⟨encode_inp, fun x s ws v hin hv => ?finite, fun x s t ws hin h => ?enabled, fun x s k hin => ?endless⟩
  case finite => exact exec_inp_of_word x (by rw [hin, Input.word?_finite, hv])
  case enabled =>
    obtain ⟨v, hv, -⟩ := exec_inp_next h
    rw [hin, Input.word?_finite] at hv
    exact (List.getElem?_eq_some_iff.1 hv).1
  case endless => exact exec_inp_of_word x (by rw [hin, Input.word?_endless])

end Sys2Proof.Machine
end

section
/-! HALT, and all that a handler does (the access matrix of spec/10_state.md section 10, the halt causes of
spec/60_exceptions.md). `exec_frame` says it once for all sixteen instructions; memory is `exec_mem_cases` and TRACE
`exec_bp_trace`. The obligations O2, O40, O41, O42 and O43. -/

namespace Sys2Proof.Machine

open Sys2Proof.Safety

/-! ### Raising -/

theorem State.raise_eq (s : State) (c : HaltCause) :
    s.raise c = { s with run := .halted, cause := some c, trace := s.trace ++ [.diag c] } := rfl

/-- The ignored field does not reach the handler, which only raises. -/
theorem exec_halt (x : Addr) (s : State) :
    exec (.halt x) s =
      .next { s with run := .halted, cause := some .normalHalt, trace := s.trace ++ [.diag .normalHalt] } :=
  congrArg Host.Outcome.next (s.raise_eq .normalHalt)

/-- Settles O43: `State.raise_eq`, and Halted has no cycle. -/
theorem raiseStopsAndRecordsCause : Obligations.RaiseStopsAndRecordsCause := by
  unfold Obligations.RaiseStopsAndRecordsCause
  exact fun s c => ⟨s.raise_eq c, step_of_halted (s.raise_run c)⟩

/-! ### The frame of a handler -/

/-- The cause that the Execute step of an instruction raises, if it raises one (R120, R122, R123). -/
def raisedCause (i : Instr) (s : State) : Option HaltCause :=
  match i with
  | .halt _ => some .normalHalt
  | .div x => if s.mem.read x.toNat = 0#16 then some .arithmeticFault else none
  | _ => none

/-- The instructions that the access matrix marks as writers of AC. -/
def writesAc : Instr → Bool
  | .load _ | .loadMq _ | .add _ | .sub _ | .mul _ | .div _ | .inp _ => true
  | _ => false

/-- The instructions that the access matrix marks as writers of MQ. -/
def writesMq : Instr → Bool
  | .loadMqM _ | .mul _ | .div _ => true
  | _ => false

/-- The registers and launch parameters of `t`, after the handler of `i` ran on `s`. -/
structure ExecFrame (i : Instr) (s t : State) : Prop where
  pc : t.pc = if takesJump i s.ac then (operandOf i).setWidth 16 else s.pc
  mar : t.mar = if accessesMemory i then (operandOf i).setWidth 16 else s.mar
  mbr : t.mbr = if accessesMemory i then t.mem.read (operandOf i).toNat else s.mbr
  run : t.run = if (raisedCause i s).isSome then .halted else s.run
  cause : t.cause = (raisedCause i s).or s.cause
  inpos : t.inpos = s.inpos + (inputsOf (executeEvents i s)).length
  input : t.input = s.input
  ac : writesAc i = true ∨ t.ac = s.ac
  mq : writesMq i = true ∨ t.mq = s.mq

section
variable {x : Addr} {s t : State}

theorem exec_frame_div (h : exec (.div x) s = .next t) : ExecFrame (.div x) s t := by
  by_cases hd : s.mem.read x.toNat = 0#16
  · have hraise : raisedCause (.div x) s = some .arithmeticFault := if_pos hd
    have hevents : executeEvents (.div x) s = [.diag .arithmeticFault] := if_pos hd
    rw [exec_div_of_zero hd] at h
    cases h
    exact ⟨rfl, rfl, hd.symm, by rw [hraise]; rfl, by rw [hraise]; rfl, by rw [hevents]; rfl, rfl, .inl rfl, .inl rfl⟩
  · have hraise : raisedCause (.div x) s = none := if_neg hd
    have hevents : executeEvents (.div x) s = [] := if_neg hd
    rw [exec_div_of_ne_zero hd] at h
    cases h
    exact ⟨rfl, rfl, rfl, by rw [hraise]; rfl, by rw [hraise]; rfl, by rw [hevents]; rfl, rfl, .inl rfl, .inl rfl⟩

theorem exec_frame_inp (h : exec (.inp x) s = .next t) : ExecFrame (.inp x) s t := by
  obtain ⟨v, hv, rfl⟩ := exec_inp_next h
  have hevents : executeEvents (.inp x) s = [.inp v] := by rw [executeEvents, hv]; rfl
  exact ⟨rfl, rfl, rfl, rfl, rfl, by rw [hevents]; rfl, rfl, .inl rfl, .inr rfl⟩

/-- A jump changes PC alone. -/
theorem exec_frame_jump {i : Instr} {c : Prop} [Decidable c] (htakes : takesJump i s.ac = true ↔ c)
    (hi : accessesMemory i = false ∧ raisedCause i s = none ∧ executeEvents i s = [])
    (ht : t = { s with pc := if c then (operandOf i).setWidth 16 else s.pc }) : ExecFrame i s t := by
  obtain ⟨hmem, hraise, hevents⟩ := hi
  subst ht
  exact ⟨if_congr htakes.symm rfl rfl, by rw [hmem]; rfl, by rw [hmem]; rfl, by rw [hraise]; rfl, by rw [hraise]; rfl,
    by rw [hevents]; rfl, rfl, .inr rfl, .inr rfl⟩

/-- All that a handler that answers a state does to the registers, one case for each kind of handler. -/
theorem exec_frame {i : Instr} (h : exec i s = .next t) : ExecFrame i s t := by
  cases i
  case halt | out | jmp => cases h; exact ⟨rfl, rfl, rfl, rfl, rfl, rfl, rfl, .inr rfl, .inr rfl⟩
  case loadMq => cases h; exact ⟨rfl, rfl, rfl, rfl, rfl, rfl, rfl, .inl rfl, .inr rfl⟩
  case load x => rw [exec_load] at h; cases h; exact ⟨rfl, rfl, rfl, rfl, rfl, rfl, rfl, .inl rfl, .inr rfl⟩
  case loadMqM x => rw [exec_loadMqM] at h; cases h; exact ⟨rfl, rfl, rfl, rfl, rfl, rfl, rfl, .inr rfl, .inl rfl⟩
  case stor x =>
    rw [exec_stor] at h; cases h
    exact ⟨rfl, rfl, (Memory.read_write_same _ _ _).symm, rfl, rfl, rfl, rfl, .inr rfl, .inr rfl⟩
  case sta x =>
    rw [exec_sta] at h; cases h
    exact ⟨rfl, rfl, (Memory.read_write_same _ _ _).symm, rfl, rfl, rfl, rfl, .inr rfl, .inr rfl⟩
  case add x => rw [exec_add] at h; cases h; exact ⟨rfl, rfl, rfl, rfl, rfl, rfl, rfl, .inl rfl, .inr rfl⟩
  case sub x => rw [exec_sub] at h; cases h; exact ⟨rfl, rfl, rfl, rfl, rfl, rfl, rfl, .inl rfl, .inr rfl⟩
  case mul x => rw [exec_mul] at h; cases h; exact ⟨rfl, rfl, rfl, rfl, rfl, rfl, rfl, .inl rfl, .inl rfl⟩
  case div x => exact exec_frame_div h
  case jz x =>
    rw [exec_jz] at h
    exact exec_frame_jump decide_eq_true_iff ⟨rfl, rfl, rfl⟩ (Host.Outcome.next.inj h).symm
  case jnz x =>
    rw [exec_jnz] at h
    exact exec_frame_jump decide_eq_true_iff ⟨rfl, rfl, rfl⟩ (Host.Outcome.next.inj h).symm
  case jpos x =>
    rw [exec_jpos] at h
    exact exec_frame_jump decide_eq_true_iff ⟨rfl, rfl, rfl⟩ (Host.Outcome.next.inj h).symm
  case inp x => exact exec_frame_inp h

/-- BP stays, and TRACE grows by the events of the Execute step: `exec_withMonitor` for the machine's own monitor. -/
theorem exec_bp_trace {i : Instr} (h : exec i s = .next t) :
    t.bp = s.bp ∧ t.trace = s.trace ++ executeEvents i s := by
  have hself := exec_withMonitor h s.bp s.trace
  rw [State.withMonitor_self, h] at hself
  have hstate := Host.Outcome.next.inj hself
  have hbp := congrArg State.bp hstate
  have htrace := congrArg State.trace hstate
  exact ⟨hbp, htrace⟩

end

/-! ### The instructions that the access matrix marks -/

section
variable {i : Instr}

theorem exists_of_writesAc (h : writesAc i = true) :
    ∃ x, i = .load x ∨ i = .loadMq x ∨ i = .add x ∨ i = .sub x ∨ i = .mul x ∨ i = .div x ∨ i = .inp x := by
  cases i <;> simp [writesAc] at h ⊢

theorem exists_of_writesMq (h : writesMq i = true) : ∃ x, i = .loadMqM x ∨ i = .mul x ∨ i = .div x := by
  cases i <;> simp [writesMq] at h ⊢

theorem exists_of_takesJump {ac : Word} (h : takesJump i ac = true) :
    ∃ x, i = .jmp x ∨ i = .jz x ∨ i = .jnz x ∨ i = .jpos x := by
  cases i <;> simp [takesJump] at h ⊢

/-- Only IN emits an In event, one with the next input word, if there is one (R102). -/
theorem inputsOf_executeEvents (i : Instr) (s : State) :
    inputsOf (executeEvents i s) = [] ∨
      ∃ x v, i = .inp x ∧ inputsOf (executeEvents i s) = [v] ∧ s.input.word? s.inpos = some v := by
  cases i with
  | div x =>
    refine .inl ?_
    simp only [executeEvents]
    split <;> rfl
  | inp x =>
    simp only [executeEvents]
    cases s.input.word? s.inpos with
    | none => exact .inl rfl
    | some v => exact .inr ⟨x, v, rfl, rfl, rfl⟩
  | _ => exact .inl rfl

/-- Only HALT and a DIV by zero raise, each its own cause, so DecodeFault is never raised (R122, R123, R124). -/
theorem raisedCause_eq_some {s : State} {c : HaltCause} (h : raisedCause i s = some c) :
    (∃ x, i = .halt x ∧ c = .normalHalt) ∨ (∃ x, i = .div x ∧ s.mem.read x.toNat = 0#16 ∧ c = .arithmeticFault) := by
  cases i with
  | halt x => cases h; exact .inl ⟨x, rfl, rfl⟩
  | div x =>
    simp only [raisedCause] at h
    split at h
    · next hd => cases h; exact .inr ⟨x, rfl, hd, rfl⟩
    · cases h
  | _ => cases h

theorem raisedCause_ne_decodeFault (s : State) : raisedCause i s ≠ some .decodeFault := by
  intro h
  obtain ⟨_, -, hc⟩ | ⟨_, -, -, hc⟩ := raisedCause_eq_some h
  · cases hc
  · cases hc

end

/-- Settles O40, by the three cases of `exec_mem_cases`: a store changes the word at its operand alone. -/
theorem onlyStoresWriteMemory : Obligations.OnlyStoresWriteMemory := by
  unfold Obligations.OnlyStoresWriteMemory
  refine fun i s t h => ⟨fun a hchanged => ?_, exec_mem_of_not_store h⟩
  obtain ⟨x, hi, hmem⟩ | ⟨x, hi, hmem⟩ | hmem := exec_mem_cases h
  · exact ⟨x, .inl hi, not_imp_comm.1 (Memory.read_write_of_ne _ _) (hmem ▸ hchanged)⟩
  · exact ⟨x, .inr hi, not_imp_comm.1 (Memory.read_write_of_ne _ _) (hmem ▸ hchanged)⟩
  · exact absurd (congrArg (·.read a) hmem) hchanged

/-- Settles O41: each row is a field of `exec_frame` and the list of the instructions it marks. -/
theorem handlersWriteOnlyTheirRegisters : Obligations.HandlersWriteOnlyTheirRegisters := by
  unfold Obligations.HandlersWriteOnlyTheirRegisters
  intro i s t h
  have hframe := exec_frame h
  obtain ⟨hir, hibr⟩ := exec_ir_ibr h
  refine ⟨hir, hibr, (exec_bp_trace h).1, hframe.input,
    fun hne => exists_of_writesAc (hframe.ac.resolve_right hne),
    fun hne => exists_of_writesMq (hframe.mq.resolve_right hne), fun hne => ?pc, fun hne => ?inpos, fun hne => ?access⟩
  case pc =>
    refine exists_of_takesJump (ac := s.ac) (by_contra fun hnot => hne ?_)
    rw [hframe.pc, if_neg hnot]
  case inpos =>
    obtain hnil | ⟨x, -, hi, -⟩ := inputsOf_executeEvents i s
    · exact absurd (hframe.inpos.trans (by rw [hnil, List.length_nil, Nat.add_zero])) hne
    · exact ⟨x, hi⟩
  case access =>
    by_contra hnot
    exact hne.elim (· (hframe.mar.trans (if_neg hnot))) (· (hframe.mbr.trans (if_neg hnot)))

/-- Settles O42: RUN and CAUSE change only with a raised cause (`exec_frame`), and `raisedCause_eq_some` names the two. -/
theorem onlyHaltAndDivideByZeroStop : Obligations.OnlyHaltAndDivideByZeroStop := by
  unfold Obligations.OnlyHaltAndDivideByZeroStop
  intro i s t h hchanged
  have hrun := (exec_frame h).run
  have hcause := (exec_frame h).cause
  cases hraise : raisedCause i s with
  | none =>
    rw [hraise] at hrun hcause
    exact absurd hchanged (not_or.2 ⟨not_not.2 hrun, not_not.2 hcause⟩)
  | some c =>
    rw [hraise] at hrun hcause
    refine ⟨hrun, (raisedCause_eq_some hraise).imp ?_ ?_⟩
    · rintro ⟨x, hi, rfl⟩
      exact ⟨x, hi, hcause⟩
    · rintro ⟨x, hi, hd, rfl⟩
      exact ⟨x, hi, hd, hcause⟩

/-- Settles O2: `encode_decode` and `decode_encode` make the instruction of a word unique; a handler answers a state or
`blocked`, and no cause it raises is DecodeFault. -/
theorem everyWordIsOneInstruction : Obligations.EveryWordIsOneInstruction := by
  unfold Obligations.EveryWordIsOneInstruction
  refine fun w => ⟨⟨decode w, encode_decode w, ?unique⟩, encode_decode w, fun s => ⟨?notRefused, ?noDecodeFault⟩⟩
  case unique =>
    rintro i rfl
    exact (decode_encode i).symm
  case notRefused =>
    intro r hr
    obtain ⟨t, ht⟩ | ⟨hblocked, -⟩ := exec_next_or_blocked (decode w) s
    · rw [ht] at hr; cases hr
    · rw [hblocked] at hr; cases hr
  case noDecodeFault =>
    intro t h hfault
    rw [(exec_frame h).cause, Option.or_eq_some_iff] at hfault
    exact (hfault.resolve_left (raisedCause_ne_decodeFault s)).2

end Sys2Proof.Machine
end

section
/-! One whole cycle (spec/40_cycle.md R60 to R68): when it is enabled, what it runs, and what it leaves in the registers,
memory and TRACE. `exec_frame`, `exec_mem_cases` and `step_bp_trace` carried over Fetch, Decode and the Breakpoint check.
The obligations O31, O33, O34, O36, O38, O39, O44 and O47. -/

namespace Sys2Proof.Machine

open Sys2Proof.Safety

/-! ### When a cycle is enabled -/

section
variable {s : State}

theorem step_of_exec {u : State} (hrun : s.run = .running) (h : exec (nextInstr s) s.fetchDecode = .next u) :
    step s = .next (u.breakpointCheck s.pc (nextPc s.pc)) := by
  rw [step_of_running hrun, h, finishCycle_next]

theorem step_of_exec_fault {f : Fault} (hrun : s.run = .running) (h : exec (nextInstr s) s.fetchDecode = .fault f) :
    step s = .fault f := by
  rw [step_of_running hrun]
  exact finishCycle_eq_fault.2 h

/-- Opcode 0xE is IN, so blocked is: an IN comes next and INPUT is exhausted (R101). -/
theorem blocked_iff :
    Blocked s ↔ s.run = .running ∧ (∃ x, nextInstr s = .inp x) ∧ s.input.word? s.inpos = none := by
  have hinp : (∃ x, nextInstr s = .inp x) ↔ opField (s.mem.read (maskAddr s.pc)) = 0xE#4 :=
    exists_decode_eq_iff fun x => instrOf_opcodeOf_operandOf (.inp x)
  rw [hinp, Blocked]

theorem step_of_blocked (h : Blocked s) : step s = .fault .blocked := by
  obtain ⟨hrun, ⟨x, hx⟩, hnone⟩ := blocked_iff.1 h
  refine step_of_exec_fault hrun ?_
  rw [hx]
  exact exec_inp_of_exhausted x hnone

/-- Every state is halted, blocked, or has a next state (R60). -/
theorem step_cases (s : State) :
    (s.run = .halted ∧ step s = .fault .halted) ∨ (Blocked s ∧ step s = .fault .blocked) ∨
      (s.run = .running ∧ ¬ Blocked s ∧ ∃ t, step s = .next t) := by
  cases hrun : s.run with
  | halted => exact .inl ⟨rfl, step_of_halted hrun⟩
  | running =>
    obtain ⟨u, hu⟩ | ⟨-, hnone, hinp⟩ := exec_next_or_blocked (nextInstr s) s.fetchDecode
    · have hnext := step_of_exec hrun hu
      refine .inr (.inr ⟨rfl, fun hblocked => ?_, _, hnext⟩)
      rw [step_of_blocked hblocked] at hnext
      cases hnext
    · have hblocked : Blocked s := blocked_iff.2 ⟨hrun, hinp, hnone⟩
      exact .inr (.inl ⟨hblocked, step_of_blocked hblocked⟩)

end

/-- Settles O31, by the three cases of `step_cases`. -/
theorem inBlocksExactlyWhenExhausted : Obligations.InBlocksExactlyWhenExhausted := by
  unfold Obligations.InBlocksExactlyWhenExhausted
  refine ⟨fun x s ws hin hlen => ?exhausted, fun s => ⟨fun h => ?onlyBlocked, step_of_blocked⟩,
    fun s n hblocked => runCycles_succ_of_fault n (step_of_blocked hblocked)⟩
  case exhausted => exact exec_inp_of_exhausted x (by rw [hin, Input.word?_finite, List.getElem?_eq_none hlen])
  case onlyBlocked =>
    obtain ⟨-, hhalted⟩ | ⟨hblocked, -⟩ | ⟨-, -, t, ht⟩ := step_cases s
    · rw [hhalted] at h; cases h
    · exact hblocked
    · rw [ht] at h; cases h

/-- Settles O34, by the three cases of `step_cases`. -/
theorem cycleEnabledIffRunningAndNotBlocked : Obligations.CycleEnabledIffRunningAndNotBlocked := by
  unfold Obligations.CycleEnabledIffRunningAndNotBlocked
  intro s
  obtain ⟨hrun, hstep⟩ | ⟨hblocked, hstep⟩ | ⟨hrun, hnot, t, hstep⟩ := step_cases s
  · rw [hstep, hrun]; simp
  · rw [hstep]; simp [hblocked]
  · rw [hstep]; simp [hrun, hnot]

/-- Settles O33: Fetch and Decode leave `d` (`State.fetchDecode_eq`), the handler runs on it, and the Breakpoint check
follows (`State.breakpointCheck_eq`). -/
theorem stepRunsTheDecodedInstruction : Obligations.StepRunsTheDecodedInstruction := by
  unfold Obligations.StepRunsTheDecodedInstruction
  rintro s d i w post hrun rfl rfl rfl hd
  have hfetch : d = s.fetchDecode := hd.trans s.fetchDecode_eq.symm
  subst hfetch
  refine ⟨fun t ht => ?_, fun r hr => step_of_exec_fault hrun hr⟩
  exact (step_of_exec hrun ht).trans (congrArg Host.Outcome.next (t.breakpointCheck_eq s.pc (nextPc s.pc)))

/-! ### Registers and memory after a cycle -/

/-- The Breakpoint check writes TRACE alone, of which the frame says nothing. -/
theorem ExecFrame.breakpointCheck {i : Instr} {s u : State} (h : ExecFrame i s u) (pre post : Word) :
    ExecFrame i s (u.breakpointCheck pre post) := by
  obtain ⟨hpc, hmar, hmbr, hrun, hcause, hinpos, hinput, hac, hmq⟩ := h
  constructor <;> simpa

section
variable {s t : State}

theorem step_frame (h : step s = .next t) : ExecFrame (nextInstr s) s.fetchDecode t := by
  obtain ⟨-, u, hexec, rfl⟩ := step_next h
  exact (exec_frame hexec).breakpointCheck _ _

/-- Memory after a cycle, by the three cases of `exec_mem_cases`. -/
theorem step_mem_cases (h : step s = .next t) :
    (∃ x, nextInstr s = .stor x ∧ t.mem = s.mem.write x.toNat s.ac) ∨
    (∃ x, nextInstr s = .sta x ∧ t.mem = s.mem.write x.toNat (patchWord (s.mem.read x.toNat) s.ac)) ∨
    t.mem = s.mem := by
  obtain ⟨-, u, hexec, rfl⟩ := step_next h
  rw [State.breakpointCheck_mem]
  exact exec_mem_cases (s := s.fetchDecode) hexec

theorem step_mem_of_not_accessesMemory (h : step s = .next t) (hi : ¬ accessesMemory (nextInstr s)) :
    t.mem = s.mem := by
  obtain ⟨x, hx, -⟩ | ⟨x, hx, -⟩ | hmem := step_mem_cases h
  · exact absurd (hx ▸ rfl) hi
  · exact absurd (hx ▸ rfl) hi
  · exact hmem

theorem step_pc (h : step s = .next t) :
    t.pc = if takesJump (nextInstr s) s.ac then (operandOf (nextInstr s)).setWidth 16 else nextPc s.pc :=
  (step_frame h).pc

theorem step_mar (h : step s = .next t) :
    t.mar = if accessesMemory (nextInstr s) then (operandOf (nextInstr s)).setWidth 16 else s.pc :=
  (step_frame h).mar

/-- The word that memory holds at MAR, whether the last access was the operand's or the fetch (R34). -/
theorem step_mbr (h : step s = .next t) : t.mbr = t.mem.read (maskAddr t.mar) := by
  have hmbr := (step_frame h).mbr
  by_cases hi : accessesMemory (nextInstr s)
  · have hmar : t.mar = zext16 (operandOf (nextInstr s)) := (step_mar h).trans (if_pos hi)
    rw [hmar, maskAddr_zext16]
    exact hmbr.trans (if_pos hi)
  · have hmar : t.mar = s.pc := (step_mar h).trans (if_neg hi)
    rw [hmar, step_mem_of_not_accessesMemory h hi]
    exact hmbr.trans (if_neg hi)

end

/-- Settles O36: the two cases of `step_pc`. -/
theorem pcAfterEachInstruction : Obligations.PcAfterEachInstruction := by
  unfold Obligations.PcAfterEachInstruction
  exact fun s t h => ⟨fun hjump => (step_pc h).trans (if_pos hjump), fun hnot => (step_pc h).trans (if_neg hnot)⟩

/-- Settles O38. -/
theorem marAndMbrAfterEachCycle : Obligations.MarAndMbrAfterEachCycle := by
  unfold Obligations.MarAndMbrAfterEachCycle
  exact fun s t h => ⟨step_mar h, step_mbr h⟩

theorem nextInstr_setPc (t : State) (x : Addr) : nextInstr (t.setPc (x.setWidth 16)) = decode (t.mem.read x.toNat) := by
  rw [← maskAddr_zext16 x]
  rfl

/-- Settles O47: `step_mem_cases` is memory after the store, which the fetch at X reads back. -/
theorem storeIsSeenByTheNextFetch : Obligations.StoreIsSeenByTheNextFetch := by
  unfold Obligations.StoreIsSeenByTheNextFetch
  intro s t x h
  rw [nextInstr_setPc]
  obtain ⟨-, u, hexec, rfl⟩ := step_next h
  rw [State.breakpointCheck_mem]
  refine ⟨fun hstor => ?_, fun hsta => ?_⟩
  · rw [hstor, exec_stor] at hexec
    cases hexec
    exact congrArg decode (Memory.read_write_same _ _ _)
  · rw [hsta, exec_sta] at hexec
    cases hexec
    refine (congrArg decode (Memory.read_write_same _ _ _)).trans ?_
    rw [decode, opField_patchWord, addrField_patchWord]
    rfl

/-! ### The events of a cycle -/

section
variable {s t : State}

theorem step_trace_of_not_mem (h : step s = .next t) (hbp : s.pc.toNat ∉ s.bp) :
    t.trace = s.trace ++ executeEvents (nextInstr s) s := by
  rw [(step_bp_trace h).2, State.snapEvents, if_neg hbp, List.append_nil]

theorem step_trace_of_mem (h : step s = .next t) (hbp : s.pc.toNat ∈ s.bp) :
    t.trace = s.trace ++ executeEvents (nextInstr s) s ++ [.snap (t.snapshot s.pc (nextPc s.pc))] := by
  rw [(step_bp_trace h).2, State.snapEvents, if_pos hbp]

end

/-- Settles O39. -/
theorem eventsOfOneCycleInOrder : Obligations.EventsOfOneCycleInOrder := by
  unfold Obligations.EventsOfOneCycleInOrder
  exact fun s t h => ⟨step_trace_of_not_mem h, fun hbp => ⟨_, step_trace_of_mem h hbp⟩⟩

/-- Settles O44: the Execute events are no snapshots, so the one of the Breakpoint check is the only one. -/
theorem snapshotShowsEndOfCycle : Obligations.SnapshotShowsEndOfCycle := by
  unfold Obligations.SnapshotShowsEndOfCycle
  intro s t h
  have hnone : snapsOf (s.trace ++ executeEvents (nextInstr s) s) = snapsOf s.trace := by
    rw [snapsOf_append, snapsOf_executeEvents, List.append_nil]
  refine ⟨fun hbp => ⟨_, step_trace_of_mem h hbp, hnone⟩, fun hbp => ?_⟩
  rw [step_trace_of_not_mem h hbp, hnone]

end Sys2Proof.Machine
end

section
/-! How a run ends: HALT (spec/43_control.md R91), DIV by zero (spec/60_exceptions.md R123), and Halted as a terminal state
(spec/40_cycle.md R66, R67). The obligations O24, O25, O35 and O48. -/

namespace Sys2Proof.Machine

open Sys2Proof.Safety

/-! ### HALT -/

theorem opField_eq_zero_iff (w : Word) : opField w = 0x0#4 ↔ w.toNat ≤ 0x0FFF := by
  rw [← BitVec.toNat_inj, toNat_opField, BitVec.toNat_ushiftRight, Nat.shiftRight_eq_div_pow]
  simp only [BitVec.toNat_ofNat]
  omega

/-- The cycle that executes HALT: AC, MQ and memory are kept, and no cycle follows. -/
theorem step_halt {x : Addr} {s : State} (hrun : s.run = .running) (hi : nextInstr s = .halt x) :
    ∃ t, step s = .next t ∧ HaltsNormally t ∧ t.ac = s.ac ∧ t.mq = s.mq ∧ t.mem = s.mem ∧ step t = .fault .halted := by
  have hexec := exec_halt x s.fetchDecode
  rw [← hi] at hexec
  refine ⟨_, step_of_exec hrun hexec, ⟨?run, ?cause⟩, ?ac, ?mq, ?mem, step_of_halted ?run⟩
  case run => rw [State.breakpointCheck_run]
  case cause => rw [State.breakpointCheck_cause]
  case ac => rw [State.breakpointCheck_ac, State.fetchDecode_ac]
  case mq => rw [State.breakpointCheck_mq, State.fetchDecode_mq]
  case mem => rw [State.breakpointCheck_mem, State.fetchDecode_mem]

/-- Settles O25: `opField_eq_zero_iff` is the words, `exec_halt` the state after the handler, `step_halt` the cycle. -/
theorem haltEndsTheRunNormally : Obligations.HaltEndsTheRunNormally := by
  unfold Obligations.HaltEndsTheRunNormally
  refine ⟨fun w => ?_, exec_halt, fun x s => step_halt⟩
  rw [exists_decode_eq_iff fun x => instrOf_opcodeOf_operandOf (.halt x)]
  exact opField_eq_zero_iff w

/-- Settles O48: the word 0x0000 is a HALT, and the reset memory reads 0x0000 everywhere. -/
theorem unloadedMemoryHaltsNormally : Obligations.UnloadedMemoryHaltsNormally := by
  unfold Obligations.UnloadedMemoryHaltsNormally
  have hzero : ∀ s : State, s.run = .running → s.mem.read (maskAddr s.pc) = 0x0000#16 →
      ∃ t, step s = .next t ∧ HaltsNormally t ∧ t.mem = s.mem ∧ t.ac = s.ac ∧ t.mq = s.mq := by
    intro s hrun hword
    have hi : nextInstr s = .halt 0x000#12 := by
      rw [nextInstr, hword]
      decide
    obtain ⟨t, hstep, hhalts, hac, hmq, hmem, -⟩ := step_halt hrun hi
    exact ⟨t, hstep, hhalts, hmem, hac, hmq⟩
  obtain ⟨t, hstep, hhalts, -⟩ := hzero State.reset rfl (State.reset_mem_read _)
  exact ⟨hzero, t, hstep, hhalts⟩

/-! ### DIV by zero -/

@[simp] theorem withoutSnaps_append (t u : List Event) : withoutSnaps (t ++ u) = withoutSnaps t ++ withoutSnaps u :=
  List.filter_append _ _

@[simp] theorem withoutSnaps_snapEvents (s : State) (b : List Nat) (pre : Word) :
    withoutSnaps (s.snapEvents b pre) = [] := by
  rw [State.snapEvents]
  split <;> rfl

/-- The cycle that executes a DIV by zero completes, and keeps AC, MQ and memory (R123). -/
theorem step_div_of_zero {x : Addr} {s : State} (hrun : s.run = .running) (hi : nextInstr s = .div x)
    (hd : s.mem.read x.toNat = 0#16) : ∃ t, step s = .next t ∧ t.ac = s.ac ∧ t.mq = s.mq ∧ t.mem = s.mem := by
  have hexec := exec_div_of_zero (s := s.fetchDecode) hd
  rw [← hi] at hexec
  refine ⟨_, step_of_exec hrun hexec, ?ac, ?mq, ?mem⟩
  case ac => rw [State.breakpointCheck_ac, State.raise_ac, State.fetchDecode_ac]
  case mq => rw [State.breakpointCheck_mq, State.raise_mq, State.fetchDecode_mq]
  case mem => rw [State.breakpointCheck_mem, State.raise_mem, State.fetchDecode_mem]

/-- Settles O24: `step_div_of_zero` is the cycle, `step_frame` and `step_ir_ibr` the other registers, and the Diag is the
one Execute event. -/
theorem divideByZeroHaltsWithArithmeticFault : Obligations.DivideByZeroHaltsWithArithmeticFault := by
  unfold Obligations.DivideByZeroHaltsWithArithmeticFault
  intro s x hrun hi hd
  obtain ⟨t, hstep, hac, hmq, hmem⟩ := step_div_of_zero hrun hi hd
  have hframe := step_frame hstep
  obtain ⟨hir, hibr⟩ := step_ir_ibr hstep
  have hraise : raisedCause (.div x) s.fetchDecode = some .arithmeticFault := if_pos hd
  have hevents : executeEvents (.div x) s = [.diag .arithmeticFault] := if_pos hd
  have hnotIn : inputsOf (executeEvents (.div x) s) = [] := by rw [hevents]; rfl
  have hdiag : withoutSnaps t.trace = withoutSnaps s.trace ++ [.diag .arithmeticFault] := by
    rw [(step_bp_trace hstep).2, hi, hevents, withoutSnaps_append, withoutSnaps_append, withoutSnaps_snapEvents,
      List.append_nil]
    rfl
  rw [hi] at hframe
  refine ⟨t, hstep, ⟨?run, ?cause⟩, hac, hmq, hmem, hframe.mar, ?mbr, ?ir, ?ibr, hframe.pc, ?inpos, hdiag,
    fun hbp => ?noSnap, fun hbp => ⟨t.snapshot s.pc (nextPc s.pc), ?snap⟩⟩
  case run => exact hframe.run.trans (by rw [hraise]; rfl)
  case cause => exact hframe.cause.trans (by rw [hraise]; rfl)
  case mbr => exact hframe.mbr.trans (by rw [hmem]; exact hd)
  case ir => rw [hir, ← opcodeOf_decode]; exact congrArg opcodeOf hi
  case ibr => rw [hibr, ← operandOf_decode]; exact congrArg operandOf hi
  case inpos => exact hframe.inpos.trans (congrArg (s.inpos + ·.length) hnotIn)
  case noSnap => rw [step_trace_of_not_mem hstep hbp, hi, hevents]
  case snap => rw [step_trace_of_mem hstep hbp, hi, hevents, List.append_assoc]; rfl

/-! ### Halted is terminal -/

/-- A run is any shorter run and then the rest. -/
theorem runCycles_add {s u : State} {n : Nat} (h : runCycles n s = .next u) (k : Nat) :
    runCycles (n + k) s = runCycles k u := by
  induction n generalizing s with
  | zero => cases h; rw [Nat.zero_add]
  | succ n ih =>
    obtain ⟨v, hstep, hrun⟩ := runCycles_succ_next h
    rw [Nat.add_right_comm, runCycles_succ_of_next _ hstep, ih hrun]

/-- Settles O35: a longer run is the run to the halted state and then at least one cycle from it. -/
theorem haltedIsTerminal : Obligations.HaltedIsTerminal := by
  unfold Obligations.HaltedIsTerminal
  refine ⟨fun s => step_of_halted, fun s t n m h hrun hlt => ?_⟩
  obtain ⟨k, rfl⟩ := Nat.exists_eq_add_of_lt hlt
  rw [Nat.add_assoc, runCycles_add h, runCycles_succ_of_fault k (step_of_halted hrun)]

end Sys2Proof.Machine
end

section
/-! Sequential execution (spec/40_cycle.md R68, R69): runs without a taken jump go through the addresses in order, modulo
4096. The obligation O37. -/

namespace Sys2Proof.Machine

open Sys2Proof.Safety

section
variable {n k : Nat} {s t : State}

theorem noJumpFor_succ_of_next (h : step s = .next t) :
    noJumpFor (n + 1) s ↔ ¬ takesJump (nextInstr s) s.ac ∧ noJumpFor n t := by
  simp only [noJumpFor, h]

/-- A run that completes without a taken jump has completed every shorter run, without one too. -/
theorem runCycles_noJumpFor_of_add (hjump : noJumpFor (n + k) s) (h : runCycles (n + k) s = .next t) :
    noJumpFor n s ∧ ∃ u, runCycles n s = .next u := by
  induction n generalizing s with
  | zero => exact ⟨trivial, s, rfl⟩
  | succ n ih =>
    rw [Nat.add_right_comm] at hjump h
    obtain ⟨u, hstep, hrun⟩ := runCycles_succ_next h
    obtain ⟨hnot, hrest⟩ := (noJumpFor_succ_of_next hstep).1 hjump
    rw [noJumpFor_succ_of_next hstep, runCycles_succ_of_next n hstep]
    exact (ih hrest hrun).imp_left fun hn => ⟨hnot, hn⟩

/-- R69, by induction over the cycles: each adds one to PC modulo 4096. -/
theorem runCycles_pc_of_noJumpFor (hpc : s.pc.toNat < 4096) (hjump : noJumpFor n s) (h : runCycles n s = .next t) :
    t.pc.toNat = (s.pc.toNat + n) % 4096 := by
  induction n generalizing s with
  | zero =>
    cases h
    exact (Nat.mod_eq_of_lt hpc).symm
  | succ n ih =>
    obtain ⟨u, hstep, hrun⟩ := runCycles_succ_next h
    obtain ⟨hnot, hrest⟩ := (noJumpFor_succ_of_next hstep).1 hjump
    have hu : u.pc = nextPc s.pc := (step_pc hstep).trans (if_neg hnot)
    rw [ih (hu ▸ nextPc_lt s.pc) hrest hrun, hu, nextPc_toNat]
    omega

/-- PC before each cycle of a run without a taken jump. -/
theorem runCycles_pc_of_le {m : Nat} (hpc : s.pc.toNat < 4096) (hjump : noJumpFor n s) (h : runCycles n s = .next t)
    (hm : m ≤ n) : ∃ u, runCycles m s = .next u ∧ u.pc.toNat = (s.pc.toNat + m) % 4096 := by
  obtain ⟨k, rfl⟩ := Nat.exists_eq_add_of_le hm
  obtain ⟨hjump', u, hu⟩ := runCycles_noJumpFor_of_add hjump h
  exact ⟨u, hu, runCycles_pc_of_noJumpFor hpc hjump' hu⟩

end

/-- Settles O37: the cycle before which PC is `a` is number `a - PC` modulo 4096, and no other of the 4096. -/
theorem sequentialCyclesAdvancePcModulo4096 : Obligations.SequentialCyclesAdvancePcModulo4096 := by
  unfold Obligations.SequentialCyclesAdvancePcModulo4096
  refine ⟨fun n s t => runCycles_pc_of_noJumpFor, fun s t hpc hjump h => ?around, fun s t hpc hjump h a ha => ?once⟩
  case around =>
    apply BitVec.eq_of_toNat_eq
    rw [runCycles_pc_of_noJumpFor hpc hjump h, Nat.add_mod_right, Nat.mod_eq_of_lt hpc]
  case once =>
    obtain ⟨n, hn, hna⟩ : ∃ n < 4096, (s.pc.toNat + n) % 4096 = a := ⟨(a + 4096 - s.pc.toNat) % 4096, by omega, by omega⟩
    obtain ⟨u, hu, hupc⟩ := runCycles_pc_of_le hpc hjump h hn.le
    refine ⟨n, ⟨hn, u, hu, hupc.trans hna⟩, ?_⟩
    rintro m ⟨hm, v, hv, hva⟩
    obtain ⟨v', hv', hvpc⟩ := runCycles_pc_of_le hpc hjump h hm.le
    obtain rfl : v' = v := Host.Outcome.next.inj (hv'.symm.trans hv)
    omega

end Sys2Proof.Machine
end

section
/-! The Breakpoint Monitor has no effect on the machine (spec/45_snapshot_monitor.md R115): under two monitors whose TRACEs
agree up to snapshots a run has the same outcome up to snapshots. The obligation O46. -/

namespace Sys2Proof.Machine

open Sys2Proof.Safety

section
variable {s : State} {b b' : List Nat} {tr tr' : List Event}

/-- A state without a next cycle has none under any monitor, for the same reason. -/
theorem step_withMonitor_of_fault {f : Fault} (h : step s = .fault f) (b : List Nat) (tr : List Event) :
    step (s.withMonitor b tr) = .fault f := by
  obtain ⟨hrun, hstep⟩ | ⟨hblocked, hstep⟩ | ⟨-, -, t, hstep⟩ := step_cases s
  · rw [step_of_halted ((s.withMonitor_run b tr).trans hrun), ← hstep, h]
  · have hblocked' : Blocked (s.withMonitor b tr) := hblocked
    rw [step_of_blocked hblocked', ← hstep, h]
  · rw [hstep] at h; cases h

/-- What is left of a state without the monitor depends on neither BP nor the snapshots. -/
theorem unobserved_withMonitor (h : withoutSnaps tr = withoutSnaps tr') :
    unobserved (.next (s.withMonitor b tr)) = unobserved (.next (s.withMonitor b' tr')) := by
  have hmachine : ∀ (c : List Nat) (es : List Event),
      unobserved (.next (s.withMonitor c es)) = .next { s with bp := [], trace := withoutSnaps es } := fun _ _ => rfl
  rw [hmachine, hmachine, h]

/-- The simulation: cycle by cycle the two machines stay the same up to snapshots. -/
theorem unobserved_runCycles_withMonitor (n : Nat) (h : withoutSnaps tr = withoutSnaps tr') :
    unobserved (runCycles n (s.withMonitor b tr)) = unobserved (runCycles n (s.withMonitor b' tr')) := by
  induction n generalizing s tr tr' with
  | zero => exact unobserved_withMonitor h
  | succ n ih =>
    cases hstep : step s with
    | next t =>
      rw [runCycles_succ_of_next n (step_withMonitor hstep b tr), runCycles_succ_of_next n (step_withMonitor hstep b' tr')]
      refine ih ?_
      simp only [withoutSnaps_append, withoutSnaps_snapEvents, h]
    | fault f =>
      rw [runCycles_succ_of_fault n (step_withMonitor_of_fault hstep b tr),
        runCycles_succ_of_fault n (step_withMonitor_of_fault hstep b' tr')]
    | refused r => exact absurd hstep ((cycleEnabledIffRunningAndNotBlocked s).2 r)

end

/-- Settles O46: both runs start with the TRACE of `s`. -/
theorem monitorHasNoEffectOnTheMachine : Obligations.MonitorHasNoEffectOnTheMachine := by
  unfold Obligations.MonitorHasNoEffectOnTheMachine
  exact fun n s b => unobserved_runCycles_withMonitor (s := s) (tr := s.trace) (tr' := s.trace) n rfl

end Sys2Proof.Machine
end

section
/-! The invariants of the machine (spec/10_state.md sections 3 to 8, spec/45_snapshot_monitor.md R113), each kept by every
cycle. The obligations O51, O52, O53 and O54. -/

namespace Sys2Proof.Machine

open Sys2Proof.Safety

section
variable {s t : State}

/-! ### Addresses and memory -/

theorem step_pc_lt (h : step s = .next t) : t.pc.toNat < Config.memoryWords := by
  rw [step_pc h]
  split
  · exact zext16_lt _
  · exact nextPc_lt _

theorem step_mar_lt (h : step s = .next t) (hpc : s.pc.toNat < Config.memoryWords) :
    t.mar.toNat < Config.memoryWords := by
  rw [step_mar h]
  split
  · exact zext16_lt _
  · exact hpc

theorem step_mem_wf (h : step s = .next t) (hwf : s.mem.wf) : t.mem.wf := by
  obtain ⟨x, -, hmem⟩ | ⟨x, -, hmem⟩ | hmem := step_mem_cases h
  · exact hmem ▸ Memory.wf_write hwf x.isLt _
  · exact hmem ▸ Memory.wf_write hwf x.isLt _
  · exact hmem ▸ hwf

end

/-- Settles O51: MAR after the fetch is the old PC, so it needs PC in range. -/
theorem stepKeepsAddressesInRange : Obligations.StepKeepsAddressesInRange := by
  unfold Obligations.StepKeepsAddressesInRange
  rintro s t ⟨hpc, -, hwf⟩ h
  exact ⟨step_pc_lt h, step_mar_lt h hpc, step_mem_wf h hwf⟩

/-! ### CAUSE and the one Diag -/

@[simp] theorem diagsOf_append (t u : List Event) : diagsOf (t ++ u) = diagsOf t ++ diagsOf u :=
  List.filterMap_append

@[simp] theorem diagsOf_snapEvents (s : State) (b : List Nat) (pre : Word) : diagsOf (s.snapEvents b pre) = [] := by
  rw [State.snapEvents]
  split <;> rfl

/-- The Execute step emits a Diag exactly when it raises, with the raised cause (R121). -/
@[simp] theorem diagsOf_executeEvents (i : Instr) (s : State) :
    diagsOf (executeEvents i s) = (raisedCause i s).toList := by
  cases i with
  | div x =>
    simp only [executeEvents, raisedCause]
    split <;> rfl
  | inp _ =>
    simp only [executeEvents]
    cases s.input.word? s.inpos <;> rfl
  | _ => rfl

/-- Settles O52: a cycle begins with no cause and no Diag, so after it CAUSE and the Diag are what its Execute step
raised. -/
theorem stepKeepsCauseAgreement : Obligations.StepKeepsCauseAgreement := by
  unfold Obligations.StepKeepsCauseAgreement
  rintro s t ⟨hrunning, -, hdiags⟩ h
  have hrun : s.run = .running := (step_next h).1
  have hnone : s.cause = none := hrunning.1 hrun
  have hcause : t.cause = raisedCause (nextInstr s) s := by
    refine (step_frame h).cause.trans ?_
    rw [State.fetchDecode_cause, hnone, Option.or_none]
    rfl
  have hrun' : t.run = if t.cause.isSome then .halted else .running := by
    rw [hcause, ← hrun]
    exact (step_frame h).run
  refine ⟨?agree, hcause ▸ raisedCause_ne_decodeFault s, ?diags⟩
  case agree => rw [hrun']; cases t.cause <;> simp
  case diags =>
    rw [(step_bp_trace h).2, diagsOf_append, diagsOf_append, diagsOf_snapEvents, diagsOf_executeEvents, hdiags, hnone,
      hcause, Option.toList_none, List.nil_append, List.append_nil]

/-! ### The In events -/

@[simp] theorem inputsOf_append (t u : List Event) : inputsOf (t ++ u) = inputsOf t ++ inputsOf u :=
  List.filterMap_append

@[simp] theorem inputsOf_snapEvents (s : State) (b : List Nat) (pre : Word) : inputsOf (s.snapEvents b pre) = [] := by
  rw [State.snapEvents]
  split <;> rfl

/-- Settles O53: INPOS advances by the number of In events of the Execute step, which carry the word at the old INPOS. -/
theorem stepKeepsInputAccounted : Obligations.StepKeepsInputAccounted := by
  unfold Obligations.StepKeepsInputAccounted
  intro s t hinputs h
  unfold InputAccounted at hinputs ⊢
  have hinpos : t.inpos = s.inpos + (inputsOf (executeEvents (nextInstr s) s)).length := (step_frame h).inpos
  have hinput : t.input = s.input := (step_frame h).input
  have htrace : inputsOf t.trace = inputsOf s.trace ++ inputsOf (executeEvents (nextInstr s) s) := by
    rw [(step_bp_trace h).2, inputsOf_append, inputsOf_append, inputsOf_snapEvents, List.append_nil]
  obtain hnil | ⟨-, v, -, hone, hv⟩ := inputsOf_executeEvents (nextInstr s) s
  · rw [hinpos, hinput, htrace, hnil, List.append_nil, List.length_nil, Nat.add_zero, hinputs]
  · rw [hinpos, hinput, htrace, hone, List.map_append, hinputs, List.length_singleton, List.range_succ, List.map_append,
      List.map_singleton, List.map_singleton, hv]

/-! ### The snapshots -/

/-- What R113 asks of one snapshot, with the breakpoints `b`. -/
def SnapshotFaithful (b : List Nat) (r : Snapshot) : Prop :=
  r.pcPre.toNat ∈ b ∧ r.pcPost = nextPc r.pcPre ∧ r.ir.toNat < 16 ∧ r.ibr.toNat < Config.memoryWords

theorem snapshotsFaithful_iff (s : State) : SnapshotsFaithful s ↔ ∀ r ∈ snapsOf s.trace, SnapshotFaithful s.bp r :=
  Iff.rfl

/-- The Breakpoint check emits only snapshots at a breakpoint, with the fields widened by zeros. -/
theorem snapshotFaithful_of_mem_snapEvents {s : State} {b : List Nat} {pre : Word} {r : Snapshot}
    (hr : r ∈ snapsOf (s.snapEvents b pre)) : SnapshotFaithful b r := by
  rw [State.snapEvents] at hr
  split at hr
  · next hmem =>
    obtain rfl : r = s.snapshot pre (nextPc pre) := List.mem_singleton.1 hr
    have hir : (zext16 s.ir).toNat < 16 := by
      rw [zext16_toNat (by decide)]
      exact s.ir.isLt
    exact ⟨hmem, rfl, hir, zext16_lt s.ibr⟩
  · cases hr

/-- Settles O54: BP stays, and the new snapshots are those of the Breakpoint check. -/
theorem stepKeepsSnapshotsFaithful : Obligations.StepKeepsSnapshotsFaithful := by
  unfold Obligations.StepKeepsSnapshotsFaithful
  intro s t hold h
  obtain ⟨hbp, htrace⟩ := step_bp_trace h
  rw [snapshotsFaithful_iff] at hold ⊢
  intro r hr
  rw [htrace, snapsOf_append, snapsOf_append, snapsOf_executeEvents, List.append_nil, List.mem_append] at hr
  rw [hbp]
  exact hr.elim (hold r) snapshotFaithful_of_mem_snapEvents

end Sys2Proof.Machine
end

section
/-! Launch (spec/70_reset_and_hazards.md R143, R144): what the loader leaves in memory, the images it refuses, and the
state at the first cycle. The obligations O50 and O55. -/

namespace Sys2Proof.Machine

open Sys2Proof.Safety

/-! ### The loader -/

section
variable {im : Image} {m : Memory}

theorem loadImage_append (im after : Image) (m : Memory) :
    loadImage (im ++ after) m = loadImage after (loadImage im m) := by
  induction im generalizing m with
  | nil => rfl
  | cons p rest ih => exact ih _

theorem read_loadImage_of_not_named {a : Nat} (h : ∀ p ∈ im, p.1 ≠ a) : (loadImage im m).read a = m.read a := by
  induction im generalizing m with
  | nil => rfl
  | cons p rest ih =>
    obtain ⟨hp, hrest⟩ := List.forall_mem_cons.1 h
    exact (ih hrest).trans (Memory.read_write_of_ne _ _ hp.symm)

/-- A later pair overrides an earlier one (R144). -/
theorem read_loadImage_of_last (before : Image) {after : Image} {a : Nat} {v : Word} (h : ∀ p ∈ after, p.1 ≠ a) :
    (loadImage (before ++ (a, v) :: after) m).read a = v := by
  rw [loadImage_append]
  exact (read_loadImage_of_not_named h).trans (Memory.read_write_same _ _ _)

/-- The loader keeps the canonical form when every pair names an existing word. -/
theorem wf_loadImage (him : ∀ p ∈ im, p.1 < Config.memoryWords) (hm : m.wf) : (loadImage im m).wf := by
  induction im generalizing m with
  | nil => exact hm
  | cons p rest ih =>
    obtain ⟨hp, hrest⟩ := List.forall_mem_cons.1 him
    exact ih hrest (Memory.wf_write hm hp _)

end

/-! ### The state at the first cycle -/

/-- The reset state with memory, BP and INPUT as launched (R143). -/
def startState (m : Memory) (bp : List Nat) (input : Input) : State :=
  { State.reset with mem := m, bp := bp, input := input }

theorem startState_reset : startState [] [] (.endless 0) = State.reset := rfl

section
variable {im : Image} (bp : List Nat) (input : Input)

theorem wellFormed_iff : im.wellFormed = true ↔ ∀ p ∈ im, p.1 < Config.memoryWords := by
  simp [Image.wellFormed]

theorem launch_of_wellFormed (him : ∀ p ∈ im, p.1 < Config.memoryWords) :
    launch im bp input = some (startState (loadImage im []) bp input) :=
  if_pos (wellFormed_iff.2 him)

theorem launch_of_not_wellFormed (him : ¬ ∀ p ∈ im, p.1 < Config.memoryWords) : launch im bp input = none :=
  if_neg (wellFormed_iff.not.2 him)

/-- Nothing has happened yet, so only the form of memory is asked of the launch. -/
theorem startState_invariants {m : Memory} (hm : m.wf) :
    AddressesInRange (startState m bp input) ∧ CauseAgrees (startState m bp input) ∧
      InputAccounted (startState m bp input) ∧ SnapshotsFaithful (startState m bp input) := by
  have hzero : (0x0000#16).toNat < Config.memoryWords := by decide
  have hcause : CauseAgrees (startState m bp input) := ⟨iff_of_true rfl rfl, nofun, rfl⟩
  exact ⟨⟨hzero, hzero, hm⟩, hcause, rfl, nofun⟩

end

/-- Settles O50: an admitted image is loaded by `loadImage`, whose reads are the last pair of an address, and the reset
content where no pair names it. -/
theorem launchLoadsImage : Obligations.LaunchLoadsImage := by
  unfold Obligations.LaunchLoadsImage
  intro im bp input
  refine ⟨fun ⟨p, hp, hlarge⟩ => ?refused, fun him => ?loaded⟩
  case refused => exact launch_of_not_wellFormed bp input fun hall => absurd (hall p hp) (Nat.not_lt.2 hlarge)
  case loaded =>
    refine ⟨_, launch_of_wellFormed bp input fun p hp => Nat.lt_succ_of_le (him p hp), ?_,
      fun a => read_loadImage_of_not_named⟩
    rintro before after a v rfl hafter
    exact read_loadImage_of_last before hafter

/-- Settles O55, by `startState_invariants`: memory is canonical when nothing is loaded, and the loader keeps it so. -/
theorem resetAndLaunchMeetInvariants : Obligations.ResetAndLaunchMeetInvariants := by
  unfold Obligations.ResetAndLaunchMeetInvariants
  refine ⟨startState_reset ▸ startState_invariants _ _ Memory.wf_nil, fun im bp input s h => ?_⟩
  by_cases him : ∀ p ∈ im, p.1 < Config.memoryWords
  · rw [launch_of_wellFormed bp input him] at h
    cases h
    exact startState_invariants bp input (wf_loadImage him Memory.wf_nil)
  · rw [launch_of_not_wellFormed bp input him] at h
    cases h

end Sys2Proof.Machine
end
